-- ==== Sys2Proof/Word.lean ====
section
/-! DEFINITION. The bit-vector types of PS2-CORE (spec/00_scope.md R6, R9; spec/10_state.md R20).
Every value is unsigned (R9). -/

namespace Sys2Proof

/-- One item of the queue, and the sampler's accumulator: 8 bits (00_scope.md R6). -/
abbrev Byte := BitVec 8

/-- The sampler's position in a frame, stored in 4 bits (10_state.md R21). -/
abbrev BitCount := BitVec 4

/-- The level of the data line at a clock edge: 1 is high, 0 is low (00_scope.md R9, D3). -/
abbrev Level := BitVec 1

/-- One event word `e[11:0]` (30_encoding.md R60). -/
abbrev EventWord := BitVec 12

end Sys2Proof
end

