-- ==== Sys2Proof/Config.lean ====
section
/-! DEFINITION. What is fixed for one realization of PS2-CORE: the capacity `N` and the producer port
(spec/00_scope.md R5, R7, R13; spec/70_reset_and_hazards.md R151), and the fixed frame geometry (R6).
No rule of the spec leaves the result of an event undefined, so there is no opaque free value here. -/

namespace Sys2Proof

/-- `PRODUCER_PORT` (00_scope.md R7): who drives the producer port of the queue. -/
inductive ProducerPort where
  /-- Only the Bit Sampler: `EDGE` is admitted and `ENQ` is refused. The spec's default. -/
  | sampler
  /-- Only `ENQ` events: the sampler is disconnected and `EDGE` is refused. -/
  | external
deriving DecidableEq, Repr

/-- The two configuration parameters (00_scope.md R5, R7). They are fixed before the first event and no
event changes them (70_reset_and_hazards.md R151). -/
structure Config where
  /-- `N`, the number of slots of the Ring Queue (R5). -/
  n : Nat
  /-- `PRODUCER_PORT` (R7). -/
  producerPort : ProducerPort
deriving DecidableEq, Repr

/-- The reference value of `N` and the default of `PRODUCER_PORT` (00_scope.md R5, R7). -/
def Config.reference : Config := { n := 5, producerPort := .sampler }

/-- `DATA_BITS` (00_scope.md R6): fixed, not a parameter (D30). -/
abbrev dataBits : Nat := 8

/-- `FRAME_LEN` in edges, start + 8 data + parity + stop (00_scope.md R6): fixed, not a parameter (D30). -/
abbrev frameLen : Nat := 11

end Sys2Proof
end

