-- ==== Sys2Proof/Syntax.lean ====
section
/-! DEFINITION. The closed event alphabet of PS2-CORE (spec/30_encoding.md R61, spec/opcode_table.json) and the
agents that issue events (spec/00_scope.md R11). -/

namespace Sys2Proof

/-- The six events, one constructor per row of the opcode table. PS2-CORE is not a processor: these are its
"instructions" (00_scope.md R1). -/
inductive Instr where
  /-- `EDGE d`: one falling edge of the PS/2 clock with the data level `d` (40_sampler.md R80). -/
  | edge (d : Level)
  /-- `ENQ x`: enqueue the byte `x` on the producer port (41_queue.md R100). -/
  | enq (x : Byte)
  /-- `DEQ`: dequeue on the consumer port (41_queue.md R101). -/
  | deq
  /-- `IS_EMPTY`: read the empty status (41_queue.md R102). -/
  | isEmpty
  /-- `IS_FULL`: read the full status (41_queue.md R103). -/
  | isFull
  /-- `RESET`: reset the whole block (42_control.md R120). -/
  | reset
deriving DecidableEq, Repr

/-- The four agents of the step model (00_scope.md R11; 60_exceptions.md R138). They have no identifier
beyond their port (60_exceptions.md R139). -/
inductive Agent where
  /-- The PS/2 clock and data lines as the block sees them. -/
  | bus
  /-- The producer port of the queue. -/
  | producer
  /-- The consumer port of the queue. -/
  | consumer
  /-- Issues `RESET`. -/
  | harness
deriving DecidableEq, Repr

end Sys2Proof
end

