-- ==== Sys2Proof/WellFormed.lean ====
section
/-! DEFINITION. When a configuration is one the spec admits, and when an event is admitted in it
(spec/00_scope.md R5, R7; spec/30_encoding.md R63 (d), (e)). The operands of an event are typed by their exact
widths, so an operand cannot be out of range. -/

namespace Sys2Proof

/-- The capacity range: `N >= 2` (00_scope.md R5, D13). -/
def Config.wf (c : Config) : Bool := decide (2 ≤ c.n)

/-- Which events the producer port's configuration admits (00_scope.md R7; 30_encoding.md R63 (d), (e)). -/
def Instr.admittedBy (c : Config) : Instr → Bool
  | .edge _ => c.producerPort == .sampler
  | .enq _ => c.producerPort == .external
  | .deq => true
  | .isEmpty => true
  | .isFull => true
  | .reset => true

/-- An event is well formed in a configuration when the configuration is admitted and admits the event. -/
def Instr.wf (c : Config) (i : Instr) : Bool := c.wf && i.admittedBy c

end Sys2Proof
end

