-- ==== Sys2Proof/Decode.lean ====
section
/-! DEFINITION. The 12-bit event word (spec/30_encoding.md R60 to R64): the decoder, total on all 4096 words and
refusing by the clause of R63 that applies, and after it the encoder. -/

namespace Sys2Proof

/-- Why a word has no meaning: the clauses of 30_encoding.md R63. All are safe: the model says nothing about
such a word. -/
inductive RefusedWord where
  /-- R63 (a): `op` in 0x6..0xF is reserved. -/
  | reservedOp
  /-- R63 (b): `EDGE` with `e[7:1] != 0`. -/
  | edgePayload
  /-- R63 (c): `DEQ`, `IS_EMPTY`, `IS_FULL` or `RESET` with `e[7:0] != 0`. -/
  | payloadNotZero
  /-- R63 (d): `EDGE` when `PRODUCER_PORT = EXTERNAL`. -/
  | edgeNotSampler
  /-- R63 (e): `ENQ` when `PRODUCER_PORT = SAMPLER`. -/
  | enqNotExternal
deriving DecidableEq, Repr

/-- `e[11:8]` (R60). -/
def opField (e : EventWord) : BitVec 4 := e.extractLsb' 8 4

/-- `e[7:0]` (R60). -/
def payloadField (e : EventWord) : Byte := e.extractLsb' 0 8

/-- `EDGE`'s operand `d = e[0]` (R62). -/
def levelField (p : Byte) : Level := p.extractLsb' 0 1

/-- The payload bits `e[7:1]` that `EDGE` requires to be 0 (R62). -/
def edgeRestField (p : Byte) : BitVec 7 := p.extractLsb' 1 7

/-- An event without operand: its payload must be 0 (R62, R63 (c)). -/
def noOperand (p : Byte) (i : Instr) : Except RefusedWord Instr :=
  if p = 0 then .ok i else .error .payloadNotZero

/-- The event a word spells, whatever the configuration: R61, R62 and clauses (a), (b), (c) of R63. -/
def spell (e : EventWord) : Except RefusedWord Instr :=
  let p := payloadField e
  match (opField e).toNat with
  | 0 => if edgeRestField p = 0 then .ok (.edge (levelField p)) else .error .edgePayload
  | 1 => .ok (.enq p)
  | 2 => noOperand p .deq
  | 3 => noOperand p .isEmpty
  | 4 => noOperand p .isFull
  | 5 => noOperand p .reset
  | _ => .error .reservedOp

/-- Clauses (d) and (e) of R63: the events that the producer port's configuration refuses. -/
def portRefusal (port : ProducerPort) : Instr → Option RefusedWord
  | .edge _ => if port = .external then some .edgeNotSampler else none
  | .enq _ => if port = .sampler then some .enqNotExternal else none
  | .deq => none
  | .isEmpty => none
  | .isFull => none
  | .reset => none

/-- R64's `decode(e, cfg)`. -/
def decode (cfg : Config) (e : EventWord) : Except RefusedWord Instr :=
  match spell e with
  | .error why => .error why
  | .ok i =>
    match portRefusal cfg.producerPort i with
    | some why => .error why
    | none => .ok i

/-- The format of R60: `op` above `payload`. -/
def eventWord (op : BitVec 4) (payload : Byte) : EventWord := op ++ payload

/-- The word of an event (R61, R62). -/
def encode : Instr → EventWord
  | .edge d => eventWord 0x0 (d.zeroExtend 8)
  | .enq x => eventWord 0x1 x
  | .deq => eventWord 0x2 0
  | .isEmpty => eventWord 0x3 0
  | .isFull => eventWord 0x4 0
  | .reset => eventWord 0x5 0

/-- The event word in the low `nbits` bits of a number. A number with a bit set above bit 11 is no event word
(R60: a decoder always reads exactly 12 bits; log 16). -/
def tableWord (nbits w : Nat) : Option EventWord :=
  let v := w % 2 ^ nbits
  if v < 4096 then some (BitVec.ofNat 12 v) else none

/-- The instruction the decoder reads from a row of the opcode table: the one its word spells (R61), since the
table is not about one configuration. `decode` adds the configuration's clauses. -/
def decodeTableWord (nbits w : Nat) : Option Instr :=
  match tableWord nbits w with
  | none => none
  | some e =>
    match spell e with
    | .ok i => some i
    | .error _ => none

end Sys2Proof
end

