-- ==== Sys2Proof/Machine/State.lean ====
section
/-! DEFINITION. The state of PS2-CORE (spec/10_state.md R20), the responses an event returns (spec/30_encoding.md
R66), the reasons a step stops (spec/60_exceptions.md R131) and the state after power-on (spec/10_state.md R31). -/

namespace Sys2Proof.Machine

/-- The storage of the queue (20_memory.md R40): the occupied slots as (index, byte) pairs. A slot whose index is
not listed is `None` (10_state.md R23). The canonical form is `Memory.wf` (Machine/Ops.lean). -/
abbrev Memory := List Host.Cell

/-- The condition codes of 60_exceptions.md R131. -/
inductive Cond where
  /-- Code 0: no condition. -/
  | none
  /-- Code 1: the enqueue returned `false`. -/
  | overrun
deriving DecidableEq, Repr

/-- The phases of a frame (40_sampler.md R84). -/
inductive Phase where
  /-- `bit_count = 0` (R81). -/
  | start
  /-- `bit_count` in 1..8 (R82). -/
  | data
  /-- `bit_count = 9` (R83). -/
  | parity
  /-- `bit_count = 10` (R83, R85). -/
  | stop
deriving DecidableEq, Repr

/-- The response records of 30_encoding.md R66, one form per event. -/
inductive Response where
  /-- `EDGE`: `byte`, `accepted` and `wake` are 0 or `false` when `frame` is `false`. -/
  | edge (frame : Bool) (byte : Byte) (accepted : Bool) (wake : Bool) (cond : Cond)
  /-- `ENQ`. -/
  | enq (accepted : Bool) (wake : Bool) (cond : Cond)
  /-- `DEQ`: `none` when the queue reads as empty. -/
  | deq (item : Option Byte)
  /-- `IS_EMPTY`. -/
  | isEmpty (empty : Bool)
  /-- `IS_FULL`. -/
  | isFull (full : Bool)
  /-- `RESET`: the unit response. -/
  | reset
deriving DecidableEq, Repr

/-- The whole state. The first fields are R20's tuple; `cfg` is the configuration (a parameter of the step in the
spec, a field here, log 1); the fields from `bus` on are the block's inputs and outputs (log 2, log 3). -/
structure State where
  /-- `N` and `PRODUCER_PORT` (00_scope.md R5, R7); no step writes it (70_reset_and_hazards.md R151). -/
  cfg : Config
  /-- `bit_count` (10_state.md R21). -/
  bitCount : BitCount
  /-- `acc` (10_state.md R22). -/
  acc : Byte
  /-- `slot[0..N-1]` (10_state.md R23). -/
  slots : Memory
  /-- `r`, the read index (10_state.md R24). -/
  r : Nat
  /-- `w`, the write index (10_state.md R25). -/
  w : Nat
  /-- The event words the BUS has issued that have not taken effect, in program order (20_memory.md R45). -/
  bus : List EventWord
  /-- The same for the PRODUCER port. -/
  producer : List EventWord
  /-- The same for the CONSUMER port. -/
  consumer : List EventWord
  /-- The same for the HARNESS. -/
  harness : List EventWord
  /-- Whose event takes effect next: the serialization order that the hardware leaves open (R45, R137). -/
  schedule : List Agent
  /-- The agent whose event is taking effect: its response goes there (30_encoding.md R66). -/
  issuer : Agent
  /-- The responses returned so far, oldest first, each with the agent it went to (R66, R158). -/
  responses : List (Agent × Response)
deriving DecidableEq, Repr

/-- What an enqueue leaves and returns (41_queue.md R100). -/
structure Pushed where
  /-- The state after the write and the advance of `w`. -/
  state : State
  /-- The source's return value `ok`. -/
  accepted : Bool
  /-- `wk`: the queue went from visibly empty to visibly non-empty (R104). -/
  wake : Bool
deriving DecidableEq, Repr

/-- The model-level faults of 60_exceptions.md R131. None is reachable from reset with `N >= 2` (R130). -/
inductive Fault where
  /-- Raised by `EDGE` when `bit_count > 10` (10_state.md R21, 40_sampler.md R80, D4). Safe. -/
  | bitCountOutOfRange
  /-- Raised by `DEQ` when `slot[r]` is `None` while `r != w` (10_state.md R29, 41_queue.md R101, D27). Safe. -/
  | invariantQ1
  /-- Raised by `DEQ`, `ENQ` and the completing `EDGE` on an access to a slot index outside `[0, N)`, which does
  not exist (20_memory.md R40, 10_state.md R35; log 7). Safe. -/
  | slotIndexOutOfRange
deriving DecidableEq, Repr

/-- Why the model gives an event no meaning (60_exceptions.md R134). -/
inductive Refusal where
  /-- Raised by no arm of `exec`: every instruction has its meaning. Safe. -/
  | notModelled (mnemonic : String)
  /-- Raised by the step's decoding and by `EDGE` and `ENQ` on the wrong `PRODUCER_PORT`: the clause of
  30_encoding.md R63. Safe. -/
  | word (why : RefusedWord)
  /-- Raised by every event when `N < 2` (00_scope.md R5, D13; log 5). Safe. -/
  | capacityBelowTwo
  /-- Raised by the step when the agent `a` may not issue the event `i` (60_exceptions.md R138,
  70_reset_and_hazards.md R156 (c); log 6). Safe. -/
  | wrongPort (a : Agent) (i : Instr)
deriving DecidableEq, Repr

/-- The block after power-on, which is a `RESET` (10_state.md R31, 70_reset_and_hazards.md R150), in the reference
configuration (log 9), with no event issued and no response returned (log 2, log 3). -/
def State.reset : State where
  cfg := Config.reference
  bitCount := 0
  acc := 0x00
  slots := []
  r := 0
  w := 0
  bus := []
  producer := []
  consumer := []
  harness := []
  schedule := []
  issuer := .harness
  responses := []

end Sys2Proof.Machine
end

