-- ==== Sys2Proof/Machine/Operands.lean ====
section
/-! DEFINITION. The operand forms of the events: the frame phase and the data shift of the sampler
(spec/40_sampler.md R80 to R84), the index advance (spec/41_queue.md R108) and the slot storage
(spec/20_memory.md R40, R43). -/

namespace Sys2Proof.Machine

/-- The phase a position of the frame is in (40_sampler.md R84). Positions 11..15 have none (10_state.md R21). -/
def phaseOf (bc : BitCount) : Option Phase :=
  if bc.toNat = 0 then some .start
  else if bc.toNat ≤ 8 then some .data
  else if bc.toNat = 9 then some .parity
  else if bc.toNat = 10 then some .stop
  else none

/-- The data shift of R82: one place toward bit 0, then the level into bit 7. -/
def shiftIn (d : Level) (acc : Byte) : Byte := (acc >>> 1) ||| (d.zeroExtend 8 <<< 7)

/-- What a phase does to the accumulator (R81, R82, R83): only DATA looks at the level. -/
def sample (p : Phase) (d : Level) (acc : Byte) : Byte :=
  match p with
  | .start => acc
  | .data => shiftIn d acc
  | .parity => acc
  | .stop => acc

/-- `inc_N(i)` (41_queue.md R108). -/
def incN (n i : Nat) : Nat := if i < n - 1 then i + 1 else 0

/-- `slot[i]` (00_scope.md R10, `MemRead`): an index that is not listed is `None`. -/
def slotRead : Memory → Nat → Option Byte
  | [], _ => none
  | (j, b) :: m, i => if i = j then some b else slotRead m i

/-- `slot[i] <- Some(b)` (00_scope.md R10, `MemWrite`), at its place in the rising order. -/
def slotWrite : Memory → Nat → Byte → Memory
  | [], i, b => [(i, b)]
  | (j, c) :: m, i, b =>
    if i < j then (i, b) :: (j, c) :: m
    else if i = j then (i, b) :: m
    else (j, c) :: slotWrite m i b

/-- `slot[i] <- None` (41_queue.md R101): the entry is removed. -/
def slotClear (m : Memory) (i : Nat) : Memory := m.filter fun c => c.1 != i

/-- The canonical form: indices strictly rising. An unlisted slot reads as `None` and every entry is a `Some`,
so no entry can equal what an unlisted slot reads as. -/
abbrev Memory.wf (m : Memory) : Prop := m.Pairwise fun a b => a.1 < b.1

/-- The items of `k` slots from index `i` on, each next index by `inc_N` (41_queue.md R107: "[slot[r],
slot[inc_N(r)], ...]", unwrapped from `Some`). -/
def itemsFrom (n : Nat) (m : Memory) : Nat → Nat → List Byte
  | 0, _ => []
  | k + 1, i => (slotRead m i).toList ++ itemsFrom n m k (incN n i)

end Sys2Proof.Machine
end

