-- ==== Sys2Proof/Machine/Flags.lean ====
section
/-! DEFINITION. The derived statuses and the response flags. None of them is stored (spec/10_state.md R26 to R28;
spec/41_queue.md R100, R104; spec/60_exceptions.md R131). -/

namespace Sys2Proof.Machine

/-- `empty`: `r == w` (10_state.md R27). -/
def emptyFlag (s : State) : Bool := s.r == s.w

/-- `full`: `inc_N(w) == r` (10_state.md R28, 41_queue.md R103; the spec's decision D10, log 14). -/
def fullFlag (s : State) : Bool := incN s.cfg.n s.w == s.r

/-- The visible occupancy `(w - r) mod N`, the non-negative remainder (10_state.md R26). -/
def count (s : State) : Nat := (s.w + (s.cfg.n - s.r)) % s.cfg.n

/-- The abstract queue `Q(s)`: the visible items, oldest first (41_queue.md R107). -/
def visible (s : State) : List Byte := itemsFrom s.cfg.n s.slots (count s) s.r

/-- `ok`: the advanced write index has not caught the read index (41_queue.md R100). -/
def acceptedFlag (w1 r : Nat) : Bool := w1 != r

/-- `wake = was_empty and ok` (41_queue.md R104). -/
def wakeFlag (wasEmpty ok : Bool) : Bool := wasEmpty && ok

/-- `cond`: OVERRUN exactly when the enqueue returned `false` (60_exceptions.md R131, 30_encoding.md R66). -/
def condOf (ok : Bool) : Cond := if ok then .none else .overrun

/-- The numeric condition codes (60_exceptions.md R131). -/
def Cond.code : Cond → Nat
  | .none => 0
  | .overrun => 1

end Sys2Proof.Machine
end

