-- ==== Sys2Proof/Machine/Ops.lean ====
section
/-! DEFINITION. The shared operations: named updates of the state, admission, the slot accesses and the queue's
enqueue, which the sampler's completing edge and the external `ENQ` share (spec/41_queue.md R100).
PS2-CORE takes no exception and has no return from one (spec/60_exceptions.md R130): there is no such operation. -/

namespace Sys2Proof.Machine

/-- Write the sampler's registers (10_state.md R21, R22). -/
def setSampler (bc : BitCount) (a : Byte) (s : State) : State := { s with bitCount := bc, acc := a }

/-- Write the producer's side of the queue: the storage and `w` (10_state.md R33). -/
def setTail (m : Memory) (w : Nat) (s : State) : State := { s with slots := m, w := w }

/-- Write the consumer's side of the queue: the storage and `r` (10_state.md R33). -/
def setHead (m : Memory) (r : Nat) (s : State) : State := { s with slots := m, r := r }

/-- `respond(resp)`: the response goes to the agent whose event is taking effect (00_scope.md R10,
30_encoding.md R66). -/
def respond (resp : Response) (s : State) : State := { s with responses := s.responses ++ [(s.issuer, resp)] }

/-- Every element of R20 to its reset value (42_control.md R120, 10_state.md R31). The configuration, the events
not yet served and the responses already returned stay (log 19). -/
def resetBlock (s : State) : State := { s with bitCount := 0, acc := 0x00, slots := [], r := 0, w := 0 }

/-- Run `k` when the event has a meaning in this configuration: `N >= 2` (00_scope.md R5, D13) and the producer
port admits the event (30_encoding.md R63 (d), (e)), asked in this order (log 20). -/
def whenAdmitted (i : Instr) (s : State) (k : Host.Outcome State Fault Refusal) : Host.Outcome State Fault Refusal :=
  if s.cfg.n < 2 then .refused .capacityBelowTwo
  else
    match portRefusal s.cfg.producerPort i with
    | some why => .refused (.word why)
    | none => k

/-- An index of the slot space `[0, N)` (20_memory.md R40). -/
def inSpace (s : State) (i : Nat) : Bool := decide (i < s.cfg.n)

/-- `enqueue(x)` (41_queue.md R100): the write is unconditional, `w` advances, and the return value says whether
`w` caught `r`. -/
def enqueue (x : Byte) (s : State) : Except Fault Pushed :=
  if inSpace s s.w then
    let w1 := incN s.cfg.n s.w
    let ok := acceptedFlag w1 s.r
    .ok { state := setTail (slotWrite s.slots s.w x) w1 s, accepted := ok, wake := wakeFlag (emptyFlag s) ok }
  else .error .slotIndexOutOfRange

/-- Take the item at the read slot of a queue that does not read as empty (41_queue.md R101): the byte, and the
state with the slot cleared and `r` advanced. -/
def takeHead (s : State) : Except Fault (Byte × State) :=
  if inSpace s s.r then
    match slotRead s.slots s.r with
    | none => .error .invariantQ1
    | some v => .ok (v, setHead (slotClear s.slots s.r) (incN s.cfg.n s.r) s)
  else .error .slotIndexOutOfRange

end Sys2Proof.Machine
end

