-- ==== Sys2Proof/Machine/Control.lean ====
section
/-! DEFINITION. The control event: `RESET` (spec/42_control.md R120). -/

namespace Sys2Proof.Machine

/-- `RESET` (42_control.md R120): one atomic step over both domains. A reset of one domain alone is no event of
this hardware (R120 (d)): no word spells it. -/
def execReset (s : State) : Host.Outcome State Fault Refusal :=
  whenAdmitted .reset s <| .next (respond .reset (resetBlock s))

end Sys2Proof.Machine
end

