-- ==== Sys2Proof/Machine/Queue.lean ====
section
/-! DEFINITION. The Ring Queue's events: `ENQ`, `DEQ`, `IS_EMPTY`, `IS_FULL` (spec/41_queue.md R100 to R111). -/

namespace Sys2Proof.Machine

/-- `ENQ x` (41_queue.md R100). -/
def execEnq (x : Byte) (s : State) : Host.Outcome State Fault Refusal :=
  whenAdmitted (.enq x) s <|
    match enqueue x s with
    | .error f => .fault f
    | .ok p => .next (respond (.enq p.accepted p.wake (condOf p.accepted)) p.state)

/-- `DEQ` (41_queue.md R101). -/
def execDeq (s : State) : Host.Outcome State Fault Refusal :=
  whenAdmitted .deq s <|
    if emptyFlag s then .next (respond (.deq none) s)
    else
      match takeHead s with
      | .error f => .fault f
      | .ok (v, t) => .next (respond (.deq (some v)) t)

/-- `IS_EMPTY` (41_queue.md R102). -/
def execIsEmpty (s : State) : Host.Outcome State Fault Refusal :=
  whenAdmitted .isEmpty s <| .next (respond (.isEmpty (emptyFlag s)) s)

/-- `IS_FULL` (41_queue.md R103). -/
def execIsFull (s : State) : Host.Outcome State Fault Refusal :=
  whenAdmitted .isFull s <| .next (respond (.isFull (fullFlag s)) s)

end Sys2Proof.Machine
end

