-- ==== Sys2Proof/Machine/Sampler.lean ====
section
/-! DEFINITION. The Bit Sampler: `EDGE` (spec/40_sampler.md R80 to R93). -/

namespace Sys2Proof.Machine

/-- The response of an edge that completes no frame (40_sampler.md R80). -/
def noFrame : Response := .edge false 0x00 false false .none

/-- The completing edge: push the accumulator, then reset the sampler, in the same atomic step (R85, R88). -/
def completeFrame (acc1 : Byte) (s : State) : Host.Outcome State Fault Refusal :=
  match enqueue acc1 s with
  | .error f => .fault f
  | .ok p => .next (respond (.edge true acc1 p.accepted p.wake (condOf p.accepted)) (setSampler 0 0x00 p.state))

/-- `EDGE d` (40_sampler.md R80). -/
def execEdge (d : Level) (s : State) : Host.Outcome State Fault Refusal :=
  whenAdmitted (.edge d) s <|
    match phaseOf s.bitCount with
    | none => .fault .bitCountOutOfRange
    | some p =>
      let acc1 := sample p d s.acc
      if s.bitCount.toNat + 1 = frameLen then completeFrame acc1 s
      else .next (respond noFrame (setSampler (s.bitCount + 1) acc1 s))

end Sys2Proof.Machine
end

