-- ==== Sys2Proof/Machine/Dispatch.lean ====
section
/-! DEFINITION. One arm per event of the opcode table (spec/30_encoding.md R61). -/

namespace Sys2Proof.Machine

def exec (i : Instr) (s : State) : Host.Outcome State Fault Refusal :=
  match i with
  | .edge d => Sys2Proof.Machine.execEdge d s
  | .enq x => Sys2Proof.Machine.execEnq x s
  | .deq => Sys2Proof.Machine.execDeq s
  | .isEmpty => Sys2Proof.Machine.execIsEmpty s
  | .isFull => Sys2Proof.Machine.execIsFull s
  | .reset => Sys2Proof.Machine.execReset s

end Sys2Proof.Machine
end

