-- ==== Sys2Proof/Machine/Ports.lean ====
section
/-! DEFINITION. The block's boundary: the events that the four agents have issued, the serialization of events
of different agents, and who may issue what (spec/00_scope.md R11, R12; spec/20_memory.md R44, R45;
spec/60_exceptions.md R137 to R139). -/

namespace Sys2Proof.Machine

/-- The event words an agent has issued that have not taken effect, in its program order (20_memory.md R45). -/
def pendingAt (a : Agent) (s : State) : List EventWord :=
  match a with
  | .bus => s.bus
  | .producer => s.producer
  | .consumer => s.consumer
  | .harness => s.harness

/-- Write one agent's list. -/
def setPending (a : Agent) (es : List EventWord) (s : State) : State :=
  match a with
  | .bus => { s with bus := es }
  | .producer => { s with producer := es }
  | .consumer => { s with consumer := es }
  | .harness => { s with harness := es }

/-- Who issues an event (30_encoding.md R61, 60_exceptions.md R138). -/
def agentOf : Instr → Agent
  | .edge _ => .bus
  | .enq _ => .producer
  | .deq => .consumer
  | .isEmpty => .consumer
  | .isFull => .consumer
  | .reset => .harness

/-- The producer side (60_exceptions.md R139): the BUS, plus the PRODUCER when `PRODUCER_PORT = EXTERNAL`. With SAMPLER
the PRODUCER has no steps of its own (00_scope.md R11). -/
def onProducerSide (cfg : Config) (a : Agent) : Bool :=
  a == .bus || (a == .producer && cfg.producerPort == .external)

/-- The status reads may come from either side (60_exceptions.md R138): from the CONSUMER or from an agent of the
producer side. That the BUS may read too, where 30_encoding.md R61 writes PRODUCER, is read from R138 and R139
(log 6). -/
def mayReadStatus (cfg : Config) (a : Agent) : Bool := a == .consumer || onProducerSide cfg a

/-- Who may issue what, by port (60_exceptions.md R138). -/
def mayIssue (cfg : Config) (a : Agent) : Instr → Bool
  | .edge _ => a == .bus
  | .enq _ => a == .producer
  | .deq => a == .consumer
  | .isEmpty => mayReadStatus cfg a
  | .isFull => mayReadStatus cfg a
  | .reset => a == .harness

/-- The event that takes effect next: the first of the agent whose turn it is. -/
def nextEvent (s : State) : Option (Agent × EventWord) :=
  match s.schedule with
  | [] => none
  | a :: _ =>
    match pendingAt a s with
    | [] => none
    | e :: _ => some (a, e)

/-- The turn passes on. With no turn left this changes nothing: the block holds its state (60_exceptions.md
R142). -/
def passTurn (s : State) : State := { s with schedule := s.schedule.tail }

/-- The agent's first event is consumed, exactly once (40_sampler.md R87), and the turn passes on. -/
def consumeEvent (a : Agent) (s : State) : State := setPending a (pendingAt a s).tail (passTurn s)

/-- The event is consumed and its agent is the one the response goes to. -/
def takeEvent (a : Agent) (s : State) : State := { consumeEvent a s with issuer := a }

/-- A refused event is consumed and has no other effect: no state of the block changes and nothing is returned
(30_encoding.md R63). -/
def skipEvent (s : State) : State :=
  match nextEvent s with
  | none => passTurn s
  | some (a, _) => consumeEvent a s

/-- The instruction in an agent's word, or why it has no meaning (30_encoding.md R63, R64; 60_exceptions.md
R138). -/
def readEvent (cfg : Config) (a : Agent) (e : EventWord) : Except Refusal Instr :=
  match decode cfg e with
  | .error why => .error (.word why)
  | .ok i => if mayIssue cfg a i then .ok i else .error (.wrongPort a i)

/-- An agent issues an event that takes effect next of all. -/
def issueNext (a : Agent) (e : EventWord) (s : State) : State :=
  setPending a (e :: pendingAt a s) { s with schedule := a :: s.schedule }

/-- An agent issues an event: it comes last in that agent's program order (20_memory.md R45). -/
def issue (a : Agent) (e : EventWord) (s : State) : State := setPending a (pendingAt a s ++ [e]) s

/-- Turns are given, after all those given already. -/
def giveTurns (turns : List Agent) (s : State) : State := { s with schedule := s.schedule ++ turns }

/-- An agent issues an event that takes effect after all those already scheduled. -/
def issueLast (a : Agent) (e : EventWord) (s : State) : State := giveTurns [a] (issue a e s)

/-- What the environment brings between two steps (log 21): events that the agents issue, each agent's own in its
program order, and the serialization as far as it is settled. -/
structure Offer where
  /-- The words issued, each with the agent that issues it. -/
  words : List (Agent × EventWord)
  /-- The turns given. -/
  turns : List Agent
deriving DecidableEq, Repr

/-- The agents issue words, in the order of the list. -/
def issueAll : List (Agent × EventWord) → State → State
  | [], s => s
  | p :: ps, s => issueAll ps (issue p.1 p.2 s)

/-- The block with an offer at its ports. No state of R20 changes. -/
def offerTo (o : Offer) (s : State) : State := giveTurns o.turns (issueAll o.words s)

/-- The configuration with the producer port an event needs (00_scope.md R7, 70_reset_and_hazards.md R151). -/
def configuredFor (i : Instr) (c : Config) : Config :=
  match i with
  | .edge _ => { c with producerPort := .sampler }
  | .enq _ => { c with producerPort := .external }
  | .deq => c
  | .isEmpty => c
  | .isFull => c
  | .reset => c

/-- The state in which the next step runs exactly the event of this word: its agent has issued it, its turn is
next, and the block is configured for it (log 10). A word that spells no event is issued by the HARNESS. -/
def placeWord (e : EventWord) (s : State) : State :=
  match spell e with
  | .ok i => issueNext (agentOf i) e { s with cfg := configuredFor i s.cfg }
  | .error _ => issueNext .harness e s

end Sys2Proof.Machine
end

