-- ==== Sys2Proof/Machine/Step.lean ====
section
/-! DEFINITION. One step: the next event of the serialization takes effect as one atomic transition
(spec/00_scope.md R12, spec/20_memory.md R44). -/

namespace Sys2Proof.Machine

/-- With no event the block holds its state and only the turn passes (60_exceptions.md R142). A refused event stops
the step by its reason (30_encoding.md R63, 60_exceptions.md R134); a run that goes on past it is `Run` in
Safety.lean. -/
def step (s : State) : Host.Outcome State Fault Refusal :=
  match nextEvent s with
  | none => .next (passTurn s)
  | some (a, e) =>
    match readEvent s.cfg a e with
    | .error why => .refused why
    | .ok i => exec i (takeEvent a s)

/-- The word of an opcode-table row issued by its agent, to take effect in the very next step (log 10). A number that
is no event word is not placed (log 16). -/
def State.withFetchWord (s : State) (nbits w : Nat) : State :=
  match tableWord nbits w with
  | none => s
  | some e => placeWord e s

end Sys2Proof.Machine
end

