-- ==== Sys2Proof/Machine/Script.lean ====
section
/-! DEFINITION. Event scripts (spec/30_encoding.md R65): one event per line, two pseudo-events, and the events a
script stands for. A text is a list of characters. -/

namespace Sys2Proof.Machine

/-- One line of a script. -/
inductive ScriptLine where
  /-- One event. -/
  | event (i : Instr)
  /-- `FRAME byte, p=parity, s=stop, st=start`. -/
  | frame (byte : Byte) (parity stop start : Level)
  /-- `DRAIN k`. -/
  | drain (k : Nat)
deriving DecidableEq, Repr

/-- Bit `j` of a byte as a line level. -/
def dataBit (b : Byte) (j : Nat) : Level := b.extractLsb' j 1

/-- The default parity bit of `FRAME`: 1 when the byte has an even number of one bits (R65, G1). -/
def oddParity (b : Byte) : Level :=
  BitVec.ofBool ((List.range dataBits).foldl (fun p j => p ^^ b.getLsbD j) true)

/-- The eleven edges of a frame (R65): start, `byte[0]` to `byte[7]`, parity, stop. -/
def frameEdges (b : Byte) (parity stop start : Level) : List Instr :=
  .edge start :: ((List.range dataBits).map (fun j => .edge (dataBit b j)) ++ [.edge parity, .edge stop])

/-- The events a line stands for (R65). -/
def expand : ScriptLine → List Instr
  | .event i => [i]
  | .frame b parity stop start => frameEdges b parity stop start
  | .drain k => List.replicate k .deq

/-- The event words of a script (R65: encoded by R60 to R62). -/
def assemble (lines : List ScriptLine) : List EventWord := (lines.flatMap expand).map encode

/-- The agents issue the events of a script, which take effect in the script's order. -/
def loadEvents (is : List Instr) (s : State) : State :=
  is.foldl (fun t i => issueLast (agentOf i) (encode i) t) s

/-- Split a text at the characters that `sep` accepts. -/
def splitOnChars (sep : Char → Bool) : List Char → List (List Char)
  | [] => [[]]
  | c :: cs =>
    if sep c then [] :: splitOnChars sep cs
    else
      match splitOnChars sep cs with
      | [] => [[c]]
      | l :: ls => (c :: l) :: ls

/-- A space, a tab or a carriage return (log 17). -/
def isBlank (c : Char) : Bool := c == ' ' || c == '\t' || c == '\r'

/-- The words of a text. -/
def wordsOf (cs : List Char) : List (List Char) := (splitOnChars isBlank cs).filter fun l => !l.isEmpty

/-- The value of a digit in a base up to 16; letters are in upper case. -/
def digit (base : Nat) (c : Char) : Option Nat :=
  let v := if '0' ≤ c ∧ c ≤ '9' then c.toNat - 48 else if 'A' ≤ c ∧ c ≤ 'F' then c.toNat - 55 else base
  if v < base then some v else none

/-- The number some digits spell, the most significant first, after the value read so far. -/
def numberFrom (base : Nat) : Nat → List Char → Option Nat
  | v, [] => some v
  | v, c :: cs =>
    match digit base c with
    | none => none
    | some d => numberFrom base (base * v + d) cs

/-- A numeral has at least one digit. -/
def number (base : Nat) (cs : List Char) : Option Nat := if cs.isEmpty then none else numberFrom base 0 cs

/-- `0xHH`, `0bBBBBBBBB` or decimal 0..255 (R65). The model's choice (log 17): the first two have exactly two and eight
digits, and a decimal has any number of leading zeros. -/
def byteLiteral (cs : List Char) : Option Byte :=
  let v := match cs with
    | '0' :: 'X' :: ds => if ds.length = 2 then number 16 ds else none
    | '0' :: 'B' :: ds => if ds.length = 8 then number 2 ds else none
    | ds => number 10 ds
  match v with
  | none => none
  | some n => if n < 256 then some (BitVec.ofNat 8 n) else none

/-- `0` or `1`. -/
def bitLiteral : List Char → Option Level
  | ['0'] => some 0
  | ['1'] => some 1
  | _ => none

/-- One optional setting `name=bit`: its value or the default, and the settings that are left. The model's choice
(log 17): blanks may stand around the name, the `=` and the bit, or be left out, also after the comma. -/
def setting (name : List Char) (default : Level) : List (List Char) → Option (Level × List (List Char))
  | [] => some (default, [])
  | o :: os =>
    match splitOnChars (· == '=') o with
    | [k, v] =>
      if wordsOf k = [name] then
        match wordsOf v with
        | [bit] => (bitLiteral bit).map fun d => (d, os)
        | _ => none
      else some (default, o :: os)
    | _ => none

/-- The settings of `FRAME`, in the order R65 writes them: parity, stop, start. That another order, or a setting given
twice, is refused is the model's choice (log 17). -/
def frameLine (b : Byte) (settings : List (List Char)) : Option ScriptLine :=
  match setting ['P'] (oddParity b) settings with
  | none => none
  | some (parity, rest) =>
    match setting ['S'] 1 rest with
    | none => none
    | some (stop, rest) =>
      match setting ['S', 'T'] 0 rest with
      | some (start, []) => some (.frame b parity stop start)
      | _ => none

/-- A line without settings. The model's choice (log 17): the `k` of `DRAIN` is a decimal numeral, with no `0x` or `0b`
form, and may be 0, which drains nothing. -/
def plainLine (words : List (List Char)) : Option ScriptLine :=
  match words with
  | [m] =>
    if m = "DEQ".toList then some (.event .deq)
    else if m = "IS_EMPTY".toList then some (.event .isEmpty)
    else if m = "IS_FULL".toList then some (.event .isFull)
    else if m = "RESET".toList then some (.event .reset)
    else none
  | [m, a] =>
    if m = "EDGE".toList then (bitLiteral a).map fun d => .event (.edge d)
    else if m = "ENQ".toList then (byteLiteral a).map fun x => .event (.enq x)
    else if m = "DRAIN".toList then (number 10 a).map .drain
    else none
  | _ => none

/-- One line of text: `none` for a line that spells nothing of R65, and `some none` for an empty line or one that
holds only a comment. The model's choice (log 17): such lines are admitted and stand for nothing, and blanks may stand
before, between and after the words of a line and around a comma. -/
def parseLine (line : List Char) : Option (Option ScriptLine) :=
  let code := (line.takeWhile (· != ';')).map Char.toUpper
  match splitOnChars (· == ',') code with
  | [] => some none
  | [only] =>
    match wordsOf only with
    | [] => some none
    | [m, a] =>
      if m = "FRAME".toList then ((byteLiteral a).bind fun b => frameLine b []).map some
      else (plainLine [m, a]).map some
    | ws => (plainLine ws).map some
  | head :: settings =>
    match wordsOf head with
    | [m, a] =>
      if m = "FRAME".toList then ((byteLiteral a).bind fun b => frameLine b settings).map some else none
    | _ => none

/-- The lines of a script, in order; `none` if one of them spells nothing (log 17). -/
def parseLines : List (List Char) → Option (List ScriptLine)
  | [] => some []
  | l :: ls =>
    match parseLine l, parseLines ls with
    | some (some x), some xs => some (x :: xs)
    | some none, some xs => some xs
    | _, _ => none

/-- A whole script: one event per line (R65). A line ends at a line feed or at the end of the text (log 17). -/
def parseScript (text : List Char) : Option (List ScriptLine) := parseLines (splitOnChars (· == '\n') text)

end Sys2Proof.Machine
end

