-- ==== Sys2Proof/Safety.lean ====
section
/-! DEFINITION. The terms that claims about PS2-CORE use: the invariant (spec/10_state.md R21, R29, R35), runs and
their refusal mark (spec/60_exceptions.md R134), sequences of events, and the abstract queue of
spec/41_queue.md R107. -/

namespace Sys2Proof.Machine

/-- What every state reachable from power-on satisfies. -/
structure State.Inv (s : State) : Prop where
  /-- The configuration is admitted (00_scope.md R5). -/
  capacity : 2 ≤ s.cfg.n
  /-- `bit_count` is in 0..10 (10_state.md R21). -/
  position : s.bitCount.toNat ≤ 10
  /-- `r` is in `[0, N)` (10_state.md R24, R35). -/
  readIndex : s.r < s.cfg.n
  /-- `w` is in `[0, N)` (10_state.md R25, R35). -/
  writeIndex : s.w < s.cfg.n
  /-- The storage has its canonical form. -/
  canonical : s.slots.wf
  /-- No slot outside `[0, N)` (20_memory.md R40). -/
  slotSpace : ∀ c ∈ s.slots, c.1 < s.cfg.n
  /-- Invariant Q1 (10_state.md R29). -/
  q1 : ∀ k < count s, slotRead s.slots ((s.r + k) % s.cfg.n) ≠ none

/-- The events of a list, one after the other. -/
def execAll : List Instr → State → Host.Outcome State Fault Refusal
  | [], s => .next s
  | i :: is, s =>
    match exec i s with
    | .next t => execAll is t
    | .fault f => .fault f
    | .refused why => .refused why

/-- `k` steps, stopping at the first fault or refusal: the host's `Core.run` of this machine (Laws/Step.lean,
`run_eq_stepAll`). -/
def stepAll : Nat → State → Host.Outcome State Fault Refusal
  | 0, s => .next s
  | k + 1, s =>
    match step s with
    | .next t => stepAll k t
    | .fault f => .fault f
    | .refused why => .refused why

/-- The block after power-on in a configuration, with the events its environment will issue and their
serialization (70_reset_and_hazards.md R150, R151). -/
def poweredOn (c : Config) (bus producer consumer harness : List EventWord) (schedule : List Agent) : State :=
  { State.reset with
    cfg := c, bus := bus, producer := producer, consumer := consumer, harness := harness, schedule := schedule }

/-- A run that goes on past refused words and keeps the refusal mark (30_encoding.md R63, 60_exceptions.md R134). -/
structure Run where
  /-- The block. -/
  state : State
  /-- The first reason for which an event was refused: the run's refusal mark. -/
  refusalMark : Option Refusal
  /-- The fault the run stopped at. -/
  fault : Option Fault
deriving DecidableEq, Repr

/-- A run at its start. -/
def Run.start (s : State) : Run := { state := s, refusalMark := none, fault := none }

/-- One step of a run. A refused event changes no state of the block, returns no response and sets the mark
(30_encoding.md R63). A fault stops the run. -/
def Run.advance (ρ : Run) : Run :=
  match ρ.fault with
  | some _ => ρ
  | none =>
    match step ρ.state with
    | .next t => { ρ with state := t }
    | .fault f => { ρ with fault := some f }
    | .refused why => { ρ with state := skipEvent ρ.state, refusalMark := ρ.refusalMark.or (some why) }

/-- `k` steps of a run. -/
def Run.steps : Nat → Run → Run
  | 0, ρ => ρ
  | k + 1, ρ => Run.steps k ρ.advance

/-- What the agents and the serialization bring before each step, without end (00_scope.md R12: a run is a finite or
infinite sequence of events; log 21). -/
abbrev Environment := Nat → Offer

/-- A run with an offer at the block's ports. -/
def Run.offered (o : Offer) (ρ : Run) : Run := { ρ with state := offerTo o ρ.state }

/-- An endless run: before each step the environment offers, then the block takes one step. -/
def Environment.run (env : Environment) (ρ : Run) : Nat → Run
  | 0 => ρ
  | k + 1 => ((env.run ρ k).offered (env k)).advance

/-- The state that step `k` of an endless run is taken from. -/
def Environment.facing (env : Environment) (ρ : Run) (k : Nat) : State := offerTo (env k) (env.run ρ k).state

/-- Weak fairness (20_memory.md R46, decision D24): an agent that has issued an event gets a turn, then or later. An
event once issued stays until its agent's turn, so this is weak fairness. There is no bound on when. -/
def Environment.Fair (env : Environment) (ρ : Run) : Prop :=
  ∀ (a : Agent) (k : Nat), pendingAt a (env.facing ρ k) ≠ [] → ∃ j ≥ k, (env.facing ρ j).schedule.head? = some a

/-- How many events of an agent take effect at the steps `k`, ..., `k + d - 1` of an endless run. -/
def Environment.served (env : Environment) (ρ : Run) (a : Agent) (k d : Nat) : Nat :=
  (List.range d).countP fun i => (nextEvent (env.facing ρ (k + i))).map Prod.fst == some a

/-- The condition a response carries (60_exceptions.md R131). -/
def Response.cond : Response → Cond
  | .edge _ _ _ _ c => c
  | .enq _ _ c => c
  | .deq _ => .none
  | .isEmpty _ => .none
  | .isFull _ => .none
  | .reset => .none

/-- The response record is the event's (30_encoding.md R66), a field marked "meaningful only if" is 0 or `false`
when its condition fails, and `cond = OVERRUN` exactly when an enqueue happened and was not accepted. -/
def Response.isFor (q : Response) (i : Instr) : Prop :=
  match i with
  | .edge _ => ∃ frame byte accepted wake cond, q = .edge frame byte accepted wake cond ∧
      (frame = false → byte = 0 ∧ accepted = false ∧ wake = false) ∧
      (cond = .overrun ↔ frame = true ∧ accepted = false)
  | .enq _ => ∃ accepted wake cond, q = .enq accepted wake cond ∧ (cond = .overrun ↔ accepted = false)
  | .deq => ∃ item, q = .deq item
  | .isEmpty => ∃ empty, q = .isEmpty empty
  | .isFull => ∃ full, q = .isFull full
  | .reset => q = .reset

/-- The event is an edge. -/
def isEdge : Instr → Bool
  | .edge _ => true
  | .enq _ => false
  | .deq => false
  | .isEmpty => false
  | .isFull => false
  | .reset => false

/-- The response is that of an edge that completed a frame. -/
def Response.isFrame : Response → Bool
  | .edge frame _ _ _ _ => frame
  | .enq _ _ _ => false
  | .deq _ => false
  | .isEmpty _ => false
  | .isFull _ => false
  | .reset => false

/-- The byte a response of `DEQ` hands to the consumer. -/
def Response.item : Response → Option Byte
  | .deq item => item
  | .edge _ _ _ _ _ => none
  | .enq _ _ _ => none
  | .isEmpty _ => none
  | .isFull _ => none
  | .reset => none

/-- `D` of 20_memory.md R47: the bytes returned by `DEQ`, in order. -/
def returned (rs : List (Agent × Response)) : List Byte := rs.filterMap fun p => p.2.item

/-- The byte an event enqueues: `ENQ`'s operand, or the accumulator at the completing edge. -/
def enqueuedBy (i : Instr) (s : State) : Option Byte :=
  match i with
  | .edge _ => if s.bitCount.toNat = 10 then some s.acc else none
  | .enq x => some x
  | .deq => none
  | .isEmpty => none
  | .isFull => none
  | .reset => none

/-- `E` of 20_memory.md R47: the bytes enqueued along a sequence of events, in order. -/
def enqueuedIn : List Instr → State → List Byte
  | [], _ => []
  | i :: is, s =>
    (enqueuedBy i s).toList ++
      match exec i s with
      | .next t => enqueuedIn is t
      | .fault _ => []
      | .refused _ => []

/-- The responses a state has returned beyond those of an earlier one. -/
def newResponses (s t : State) : List (Agent × Response) := t.responses.drop s.responses.length

/-- The eight levels of a frame's DATA edges packed least significant bit first (40_sampler.md R89). -/
def packLevels (d1 d2 d3 d4 d5 d6 d7 d8 : Level) : Byte :=
  d1.zeroExtend 8 ||| d2.zeroExtend 8 <<< 1 ||| d3.zeroExtend 8 <<< 2 ||| d4.zeroExtend 8 <<< 3 |||
    d5.zeroExtend 8 <<< 4 ||| d6.zeroExtend 8 <<< 5 ||| d7.zeroExtend 8 <<< 6 ||| d8.zeroExtend 8 <<< 7

/-- The abstract enqueue of 41_queue.md R107: the queue, `accepted` and `wake`. -/
def absEnqueue (n : Nat) (q : List Byte) (x : Byte) : List Byte × Bool × Bool :=
  if q.length < n - 1 then (q ++ [x], true, q.length == 0) else ([], false, false)

/-- The abstract dequeue of 41_queue.md R107. -/
def absDequeue : List Byte → List Byte × Option Byte
  | [] => ([], none)
  | h :: t => (t, some h)

/-- The abstract block: the sampler with a list for the queue (41_queue.md R107). -/
structure AbsBlock where
  /-- The capacity. -/
  n : Nat
  /-- The sampler's position. -/
  position : Nat
  /-- The accumulator. -/
  acc : Byte
  /-- The visible items, oldest first. -/
  q : List Byte
deriving DecidableEq, Repr

/-- The abstraction function. -/
def abstractOf (s : State) : AbsBlock :=
  { n := s.cfg.n, position := s.bitCount.toNat, acc := s.acc, q := visible s }

/-- The abstract events: each has one next block and one response (41_queue.md R107, 40_sampler.md R84). -/
def absExec (i : Instr) (b : AbsBlock) : AbsBlock × Response :=
  match i with
  | .edge d =>
    if b.position = 10 then
      let (q', ok, wk) := absEnqueue b.n b.q b.acc
      ({ b with position := 0, acc := 0, q := q' }, .edge true b.acc ok wk (condOf ok))
    else
      let a := if 1 ≤ b.position ∧ b.position ≤ 8 then b.acc >>> 1 ||| d.zeroExtend 8 <<< 7 else b.acc
      ({ b with position := b.position + 1, acc := a }, .edge false 0 false false .none)
  | .enq x =>
    let (q', ok, wk) := absEnqueue b.n b.q x
    ({ b with q := q' }, .enq ok wk (condOf ok))
  | .deq =>
    let (q', item) := absDequeue b.q
    ({ b with q := q' }, .deq item)
  | .isEmpty => (b, .isEmpty (b.q.length == 0))
  | .isFull => (b, .isFull (b.q.length == b.n - 1))
  | .reset => ({ b with position := 0, acc := 0, q := [] }, .reset)

end Sys2Proof.Machine
end

