-- ==== Sys2Proof/Certificates/Slice0/Obligations.lean ====
section
/-! DEFINITION. The statements for the provers, from the numbered rules of spec/. Each says in its docstring which rule
it formalises; OBLIGATIONS.json lists them. -/

open Sys2Proof Sys2Proof.Machine

/-! ## Encoding -/

/-- Words of every family, written out from the encodings of 30_encoding.md R61, R62 (vectors E-1 to E-17). -/
def Obligations.SampleWordsDecode : Prop :=
  decode ⟨5, .sampler⟩ 0b000000000000#12 = .ok (.edge 0) ∧
  decode ⟨5, .sampler⟩ 0b000000000001#12 = .ok (.edge 1) ∧
  decode ⟨5, .sampler⟩ 0b000000000010#12 = .error .edgePayload ∧
  decode ⟨5, .external⟩ 0b000000000001#12 = .error .edgeNotSampler ∧
  decode ⟨5, .external⟩ 0b000100011100#12 = .ok (.enq 0x1C) ∧
  decode ⟨5, .sampler⟩ 0b000100011100#12 = .error .enqNotExternal ∧
  decode ⟨5, .sampler⟩ 0b001000000000#12 = .ok .deq ∧
  decode ⟨5, .sampler⟩ 0b001000000001#12 = .error .payloadNotZero ∧
  decode ⟨5, .external⟩ 0b001100000000#12 = .ok .isEmpty ∧
  decode ⟨5, .external⟩ 0b010000000000#12 = .ok .isFull ∧
  decode ⟨5, .sampler⟩ 0b010100000000#12 = .ok .reset ∧
  decode ⟨5, .sampler⟩ 0b011000000000#12 = .error .reservedOp ∧
  decode ⟨5, .external⟩ 0b111111111111#12 = .error .reservedOp

/-- 30_encoding.md R64: the decode function by the operation number `e / 256` and the payload number `e % 256`, with
the clause of R63 for each refused word, and how many words spell an operation. -/
def Obligations.DecodeFollowsEventTable : Prop :=
  (∀ (cfg : Config) (e : EventWord),
    (e.toNat / 256 = 0 → decode cfg e =
      if e.toNat % 256 / 2 ≠ 0 then .error .edgePayload
      else if cfg.producerPort = .external then .error .edgeNotSampler
      else .ok (.edge (BitVec.ofNat 1 (e.toNat % 2)))) ∧
    (e.toNat / 256 = 1 → decode cfg e =
      if cfg.producerPort = .sampler then .error .enqNotExternal
      else .ok (.enq (BitVec.ofNat 8 (e.toNat % 256)))) ∧
    (e.toNat / 256 = 2 → decode cfg e = if e.toNat % 256 ≠ 0 then .error .payloadNotZero else .ok .deq) ∧
    (e.toNat / 256 = 3 → decode cfg e = if e.toNat % 256 ≠ 0 then .error .payloadNotZero else .ok .isEmpty) ∧
    (e.toNat / 256 = 4 → decode cfg e = if e.toNat % 256 ≠ 0 then .error .payloadNotZero else .ok .isFull) ∧
    (e.toNat / 256 = 5 → decode cfg e = if e.toNat % 256 ≠ 0 then .error .payloadNotZero else .ok .reset) ∧
    (6 ≤ e.toNat / 256 → decode cfg e = .error .reservedOp)) ∧
  ((List.range 4096).countP fun k => (spell (BitVec.ofNat 12 k)).toBool) = 262 ∧
  (∀ n, ((List.range 4096).countP fun k => (decode ⟨n, .sampler⟩ (BitVec.ofNat 12 k)).toBool) = 6) ∧
  (∀ n, ((List.range 4096).countP fun k => (decode ⟨n, .external⟩ (BitVec.ofNat 12 k)).toBool) = 260)

/-- Decode and encode agree (30_encoding.md R60 to R64): a word decodes to an event exactly when it is the event's
word and the configuration admits the event; and the decoder reads every row of the table. -/
def Obligations.DecodeEncodeAgree : Prop :=
  (∀ (cfg : Config) (e : EventWord) (i : Instr), decode cfg e = .ok i ↔ (e = encode i ∧ i.admittedBy cfg)) ∧
  (∀ i : Instr, decodeTableWord 16 (encode i).toNat = some i)

/-! ## The Bit Sampler -/

/-- 40_sampler.md R81: START consumes the edge and discards its level. -/
def Obligations.EdgeStartDiscardsLevel : Prop :=
  ∀ (d : Level) (s : State), (Instr.edge d).wf s.cfg → s.bitCount = 0 →
    exec (.edge d) s = .next { s with
      bitCount := 1
      responses := s.responses ++ [(s.issuer, .edge false 0x00 false false .none)] }

/-- 40_sampler.md R82: each DATA edge shifts one place toward bit 0 and sets bit 7 to the level; after the eight DATA
edges bit `j` is the level of the edge at `bit_count = j + 1`. -/
def Obligations.EdgeDataShiftsLevelIn : Prop :=
  (∀ (d : Level) (s : State), (Instr.edge d).wf s.cfg → 1 ≤ s.bitCount.toNat → s.bitCount.toNat ≤ 8 →
    ∃ t, exec (.edge d) s = .next t ∧
      t = { s with
        bitCount := s.bitCount + 1
        acc := s.acc >>> 1 ||| d.zeroExtend 8 <<< 7
        responses := s.responses ++ [(s.issuer, .edge false 0x00 false false .none)] } ∧
      t.acc.getLsbD 7 = d.getLsbD 0 ∧ ∀ j < 7, t.acc.getLsbD j = s.acc.getLsbD (j + 1)) ∧
  (∀ (level : Nat → Level) (s : State), (Instr.edge 0).wf s.cfg → s.bitCount = 1 →
    ∃ t, execAll ((List.range 8).map fun j => .edge (level (j + 1))) s = .next t ∧ t.bitCount = 9 ∧
      ∀ j < 8, t.acc.getLsbD j = (level (j + 1)).getLsbD 0)

/-- 40_sampler.md R83: PARITY keeps the accumulator; neither PARITY nor STOP looks at the level; STOP delivers the
accumulator whatever the two levels were. -/
def Obligations.EdgeParityAndStopIgnoreLevel : Prop :=
  (∀ (d : Level) (s : State), (Instr.edge d).wf s.cfg → s.bitCount = 9 →
    exec (.edge d) s = .next { s with
      bitCount := 10
      responses := s.responses ++ [(s.issuer, .edge false 0x00 false false .none)] }) ∧
  (∀ (d d' : Level) (s : State), (Instr.edge d).wf s.cfg → s.bitCount = 10 → s.w < s.cfg.n →
    exec (.edge d) s = exec (.edge d') s ∧
    ∃ t ok wk c, exec (.edge d) s = .next t ∧ t.bitCount = 0 ∧ slotRead t.slots s.w = some s.acc ∧
      t.responses = s.responses ++ [(s.issuer, .edge true s.acc ok wk c)])

/-- 40_sampler.md R85: the eleventh edge pushes the accumulator and resets the sampler in the same atomic event, and 11
is never stored. -/
def Obligations.EdgeCompletesFrame : Prop :=
  (∀ (d : Level) (s : State), (Instr.edge d).wf s.cfg → s.bitCount = 10 → s.w < s.cfg.n →
    exec (.edge d) s = .next { s with
      bitCount := 0
      acc := 0x00
      slots := slotWrite s.slots s.w s.acc
      w := incN s.cfg.n s.w
      responses := s.responses ++ [(s.issuer, .edge true s.acc (incN s.cfg.n s.w != s.r)
        (s.r == s.w && incN s.cfg.n s.w != s.r)
        (if incN s.cfg.n s.w != s.r then .none else .overrun))] }) ∧
  (∀ (d : Level) (s t : State), exec (.edge d) s = .next t → t.bitCount.toNat ≤ 10)

/-- 40_sampler.md R86: every edge counts one, modulo 11; the edges since the last RESET are 11 for each completed frame
plus `bit_count`, whatever other events stand between them. -/
def Obligations.EdgesCountModuloEleven : Prop :=
  (∀ (d : Level) (s t : State), exec (.edge d) s = .next t →
    t.bitCount.toNat = (s.bitCount.toNat + 1) % 11) ∧
  (∀ (is : List Instr) (s t : State), s.bitCount = 0 → Instr.reset ∉ is → execAll is s = .next t →
    is.countP isEdge = 11 * (newResponses s t).countP (fun p => p.2.isFrame) + t.bitCount.toNat)

/-- 40_sampler.md R91: the sampler never resynchronizes: whatever the levels and the other events, `11k` edges without a
RESET leave `bit_count` where it was, so a position out of step with the bus stays out of step. -/
def Obligations.SamplerNeverResynchronizes : Prop :=
  ∀ (is : List Instr) (s t : State) (k : Nat), s.bitCount.toNat ≤ 10 → Instr.reset ∉ is →
    is.countP isEdge = 11 * k → execAll is s = .next t → t.bitCount = s.bitCount

/-- 40_sampler.md R80, 10_state.md R21 (D4): an edge at a position that is never stored faults and computes no value. -/
def Obligations.EdgeFaultsPastLastPosition : Prop :=
  ∀ (d : Level) (s : State), (Instr.edge d).wf s.cfg → 10 < s.bitCount.toNat →
    exec (.edge d) s = .fault .bitCountOutOfRange

/-- 40_sampler.md R89, the frame law: from `bit_count = 0` and any accumulator, eleven edges return `frame = true` on
the eleventh only, with the packing of `d1..d8`, which is the byte enqueued, whatever `d0`, `d9`, `d10` are. -/
def Obligations.FrameDeliversPackedByte : Prop :=
  ∀ (d0 d1 d2 d3 d4 d5 d6 d7 d8 d9 d10 : Level) (s : State),
    (Instr.edge d0).wf s.cfg → s.bitCount = 0 → s.w < s.cfg.n →
    ∃ t ok wk c,
      execAll [.edge d0, .edge d1, .edge d2, .edge d3, .edge d4, .edge d5, .edge d6, .edge d7, .edge d8, .edge d9,
        .edge d10] s = .next t ∧
      t.responses = s.responses ++ List.replicate 10 (s.issuer, .edge false 0x00 false false .none) ++
        [(s.issuer, .edge true (packLevels d1 d2 d3 d4 d5 d6 d7 d8) ok wk c)] ∧
      t.slots = slotWrite s.slots s.w (packLevels d1 d2 d3 d4 d5 d6 d7 d8) ∧
      t.w = incN s.cfg.n s.w ∧ t.r = s.r ∧ t.bitCount = 0 ∧ t.acc = 0

/-- 40_sampler.md R90, the multi-frame law: `11k` edges enqueue exactly `k` bytes, byte `j` (from 0 here) the packing of
the levels of edges `11j + 1` to `11j + 8` (counting edges from 0), in edge order. -/
def Obligations.FramesDeliverBytesInOrder : Prop :=
  ∀ (level : Nat → Level) (k : Nat) (s : State), s.Inv → s.cfg.producerPort = .sampler → s.bitCount = 0 →
    ∃ t, execAll ((List.range (11 * k)).map fun e => .edge (level e)) s = .next t ∧ t.bitCount = 0 ∧
      enqueuedIn ((List.range (11 * k)).map fun e => .edge (level e)) s =
        (List.range k).map fun j =>
          packLevels (level (11 * j + 1)) (level (11 * j + 2)) (level (11 * j + 3)) (level (11 * j + 4))
            (level (11 * j + 5)) (level (11 * j + 6)) (level (11 * j + 7)) (level (11 * j + 8))

/-- 40_sampler.md R93: two frames that differ only at START, PARITY or STOP give identical state and responses. -/
def Obligations.FrameCorruptionIsUnobservable : Prop :=
  ∀ (start start' parity parity' stop stop' : Level) (data : List Level) (s : State),
    s.bitCount = 0 → data.length = 8 →
    execAll (.edge start :: (data.map .edge ++ [.edge parity, .edge stop])) s =
      execAll (.edge start' :: (data.map .edge ++ [.edge parity', .edge stop'])) s

/-! ## The Ring Queue -/

/-- 41_queue.md R100: the write is unconditional, `w` advances, `ok` says whether `w` caught `r`, and `wake` is
`was_empty and ok`. -/
def Obligations.EnqueueStoresAndAdvances : Prop :=
  (∀ (n : Nat) (x : Byte), decode ⟨n, .external⟩ (0x1#4 ++ x) = .ok (.enq x)) ∧
  (∀ (x : Byte) (s : State), (Instr.enq x).wf s.cfg → s.w < s.cfg.n →
    exec (.enq x) s = .next { s with
      slots := slotWrite s.slots s.w x
      w := incN s.cfg.n s.w
      responses := s.responses ++ [(s.issuer, .enq (incN s.cfg.n s.w != s.r)
        (s.r == s.w && incN s.cfg.n s.w != s.r)
        (if incN s.cfg.n s.w != s.r then .none else .overrun))] } ∧
    slotRead (slotWrite s.slots s.w x) s.w = some x)

/-- 41_queue.md R105: an enqueue with `count = N - 1` stores its byte, brings `w` to `r`, returns `false` with OVERRUN,
and leaves a queue that reads as empty while every slot holds a byte and the next slot written is `slot[r]`. -/
def Obligations.OverrunDiscardsVisibleItems : Prop :=
  ∀ (x : Byte) (s : State), s.Inv → (Instr.enq x).wf s.cfg → count s = s.cfg.n - 1 →
    fullFlag s = true ∧
    ∃ t, exec (.enq x) s = .next t ∧ t.responses = s.responses ++ [(s.issuer, .enq false false .overrun)] ∧
      slotRead t.slots s.w = some x ∧ t.r = s.r ∧ t.w = s.r ∧ count t = 0 ∧ emptyFlag t = true ∧ visible t = [] ∧
      exec .deq t = .next { t with responses := t.responses ++ [(t.issuer, .deq none)] } ∧
      (∀ a ≠ s.w, slotRead t.slots a = slotRead s.slots a) ∧ ∀ a < t.cfg.n, slotRead t.slots a ≠ none

/-- 40_sampler.md R88: an edge that completes a frame on a full queue neither waits nor stalls; the sampler is ready for
the next frame and the only sign is OVERRUN in the response. -/
def Obligations.EdgeNeverBlocksOnFullQueue : Prop :=
  ∀ (d : Level) (s : State), s.Inv → (Instr.edge d).wf s.cfg → s.bitCount = 10 → fullFlag s = true →
    ∃ t, exec (.edge d) s = .next t ∧ t.bitCount = 0 ∧ t.acc = 0 ∧ slotRead t.slots s.w = some s.acc ∧
      t.responses = s.responses ++ [(s.issuer, .edge true s.acc false false .overrun)]

/-- 70_reset_and_hazards.md R154: with at most `N - 2` visible items no enqueue overruns, from either producer, and the
byte is the newest visible item afterwards. -/
def Obligations.EnqueueBelowCapacityIsLossless : Prop :=
  ∀ (s : State), s.Inv → count s ≤ s.cfg.n - 2 →
    (∀ x, (Instr.enq x).wf s.cfg → ∃ t wk, exec (.enq x) s = .next t ∧
      t.responses = s.responses ++ [(s.issuer, .enq true wk .none)] ∧ visible t = visible s ++ [x]) ∧
    (∀ d, (Instr.edge d).wf s.cfg → s.bitCount = 10 → ∃ t wk, exec (.edge d) s = .next t ∧
      t.responses = s.responses ++ [(s.issuer, .edge true s.acc true wk .none)] ∧ visible t = visible s ++ [s.acc])

/-- 41_queue.md R101: `DEQ` on an empty queue returns `None` and changes nothing; otherwise it returns the byte at `r`,
clears the slot and advances `r`; a missing byte is the fault InvariantQ1. -/
def Obligations.DequeueTakesOldest : Prop :=
  (∀ cfg : Config, decode cfg 0x200#12 = .ok .deq) ∧
  (∀ s : State, Instr.deq.wf s.cfg → s.r = s.w →
    exec .deq s = .next { s with responses := s.responses ++ [(s.issuer, .deq none)] }) ∧
  (∀ (s : State) (v : Byte), Instr.deq.wf s.cfg → s.r ≠ s.w → s.r < s.cfg.n → slotRead s.slots s.r = some v →
    exec .deq s = .next { s with
      slots := slotClear s.slots s.r
      r := incN s.cfg.n s.r
      responses := s.responses ++ [(s.issuer, .deq (some v))] } ∧
    slotRead (slotClear s.slots s.r) s.r = none) ∧
  (∀ s : State, Instr.deq.wf s.cfg → s.r ≠ s.w → s.r < s.cfg.n → slotRead s.slots s.r = none →
    exec .deq s = .fault .invariantQ1)

/-- 41_queue.md R102: `IS_EMPTY` answers `r == w` and changes no state. -/
def Obligations.IsEmptyComparesIndices : Prop :=
  (∀ cfg : Config, decode cfg 0x300#12 = .ok .isEmpty) ∧
  (∀ s : State, Instr.isEmpty.wf s.cfg →
    exec .isEmpty s = .next { s with responses := s.responses ++ [(s.issuer, .isEmpty (s.r == s.w))] })

/-- 41_queue.md R103: `IS_FULL` answers `inc_N(w) == r` and changes no state; that is `count = N - 1`, the condition
under which the next enqueue returns `false`; at `N = 2` it is one visible item. The predicate is the spec's decision
D10 (log 14). -/
def Obligations.IsFullPredictsOverrun : Prop :=
  (∀ cfg : Config, decode cfg 0x400#12 = .ok .isFull) ∧
  (∀ s : State, Instr.isFull.wf s.cfg →
    exec .isFull s = .next { s with responses := s.responses ++ [(s.issuer, .isFull (incN s.cfg.n s.w == s.r))] }) ∧
  (∀ s : State, s.Inv →
    (incN s.cfg.n s.w = s.r ↔ count s = s.cfg.n - 1) ∧
    (s.cfg.n = 2 → (incN s.cfg.n s.w = s.r ↔ (visible s).length = 1)) ∧
    ∀ x, (Instr.enq x).wf s.cfg → ∃ t ok wk c, exec (.enq x) s = .next t ∧
      t.responses = s.responses ++ [(s.issuer, .enq ok wk c)] ∧ (ok = false ↔ incN s.cfg.n s.w = s.r))

/-- 20_memory.md R40: a slot outside `[0, N)` does not exist, and an access to it faults (log 7): the write of an enqueue
by either producer, and the read of a `DEQ`. -/
def Obligations.AccessOutsideSlotSpaceFaults : Prop :=
  (∀ (x : Byte) (s : State), (Instr.enq x).wf s.cfg → s.cfg.n ≤ s.w → exec (.enq x) s = .fault .slotIndexOutOfRange) ∧
  (∀ (d : Level) (s : State), (Instr.edge d).wf s.cfg → s.bitCount = 10 → s.cfg.n ≤ s.w →
    exec (.edge d) s = .fault .slotIndexOutOfRange) ∧
  (∀ s : State, Instr.deq.wf s.cfg → s.r ≠ s.w → s.cfg.n ≤ s.r → exec .deq s = .fault .slotIndexOutOfRange)

/-- 10_state.md R26: the visible occupancy is below `N` and is the number of `DEQ` events that return a byte when the
consumer runs alone; they return the visible items, and the queue is then empty. -/
def Obligations.ConsumerAloneDrainsVisible : Prop :=
  ∀ s : State, s.Inv → (visible s).length = count s ∧ count s < s.cfg.n ∧
    ∃ t, execAll (List.replicate (count s) .deq) s = .next t ∧
      newResponses s t = (visible s).map (fun b => (s.issuer, .deq (some b))) ∧
      exec .deq t = .next { t with responses := t.responses ++ [(t.issuer, .deq none)] }

/-- 10_state.md R27, R28: `empty` is `count = 0` and `full` is `count = N - 1`, which is exactly when the next enqueue
returns `false`. -/
def Obligations.StatusesAreOccupancy : Prop :=
  ∀ s : State, s.Inv →
    emptyFlag s = decide (s.r = s.w) ∧ (emptyFlag s = true ↔ count s = 0) ∧
    fullFlag s = decide (incN s.cfg.n s.w = s.r) ∧ (fullFlag s = true ↔ count s = s.cfg.n - 1) ∧
    ∀ x, ∃ p, enqueue x s = .ok p ∧ (p.accepted = false ↔ fullFlag s = true)

/-- 41_queue.md R104: `wake` is raised exactly when the queue goes from visibly empty to visibly non-empty, by either
producer, so an overrun never raises it. -/
def Obligations.WakeMarksEmptyToNonEmpty : Prop :=
  ∀ s : State, s.Inv →
    (∀ x, (Instr.enq x).wf s.cfg → ∃ t ok wk c, exec (.enq x) s = .next t ∧
      t.responses = s.responses ++ [(s.issuer, .enq ok wk c)] ∧
      (wk = true ↔ visible s = [] ∧ visible t ≠ []) ∧ (c = .overrun → wk = false)) ∧
    (∀ d, (Instr.edge d).wf s.cfg → s.bitCount = 10 → ∃ t ok wk c, exec (.edge d) s = .next t ∧
      t.responses = s.responses ++ [(s.issuer, .edge true s.acc ok wk c)] ∧
      (wk = true ↔ visible s = [] ∧ visible t ≠ []) ∧ (c = .overrun → wk = false))

/-- 41_queue.md R108: `inc_N`, and which events apply it: `ENQ` and the completing `EDGE` on `w`, a non-empty `DEQ` on
`r`, once each; no other event but `RESET` moves an index. -/
def Obligations.IndicesAdvanceByOne : Prop :=
  (∀ n i : Nat, i < n → incN n i = (if i < n - 1 then i + 1 else 0) ∧ incN n i = (i + 1) % n) ∧
  (∀ (i : Instr) (s t : State), exec i s = .next t → i ≠ .reset →
    t.w = (match i with
      | .enq _ => incN s.cfg.n s.w
      | .edge _ => if s.bitCount = 10 then incN s.cfg.n s.w else s.w
      | _ => s.w) ∧
    t.r = (match i with
      | .deq => if s.r = s.w then s.r else incN s.cfg.n s.r
      | _ => s.r))

/-- 41_queue.md R106: Q1 is kept by every event, and `RESET` establishes it with an empty range. -/
def Obligations.InvariantQ1IsPreserved : Prop :=
  (∀ (i : Instr) (s t : State), s.r < s.cfg.n → s.w < s.cfg.n →
    (∀ k < count s, slotRead s.slots ((s.r + k) % s.cfg.n) ≠ none) → exec i s = .next t →
    ∀ k < count t, slotRead t.slots ((t.r + k) % t.cfg.n) ≠ none) ∧
  (∀ s t : State, exec .reset s = .next t → count t = 0)

/-- 41_queue.md R107, the abstraction law, for all six events: from every state of the invariant an admitted event
answers a next state, its abstraction is the abstract event's, and so is its response. -/
def Obligations.BlockRefinesAbstractQueue : Prop :=
  ∀ (i : Instr) (s : State), s.Inv → i.wf s.cfg →
    ∃ t, exec i s = .next t ∧ abstractOf t = (absExec i (abstractOf s)).1 ∧
      t.responses = s.responses ++ [(s.issuer, (absExec i (abstractOf s)).2)]

/-- 41_queue.md R109: below capacity the queue is an exact FIFO. -/
def Obligations.FifoBelowCapacity : Prop :=
  ∀ (xs : List Byte) (s : State), s.Inv → s.cfg.producerPort = .external → s.r = s.w → xs.length = s.cfg.n - 1 →
    ∃ t, execAll (xs.map .enq ++ List.replicate s.cfg.n .deq) s = .next t ∧
      (newResponses s t).map Prod.snd =
        (List.range xs.length).map (fun k => .enq true (k == 0) .none) ++ xs.map (fun b => .deq (some b)) ++
          [.deq none]

/-- 41_queue.md R110: `N` enqueues from an empty queue return `true` but for the last; the last byte is stored at
`(r0 + N - 1) mod N`, and a subsequent `DEQ` returns `None`. -/
def Obligations.NthEnqueueLosesAll : Prop :=
  ∀ (xs : List Byte) (x : Byte) (s : State), s.Inv → s.cfg.producerPort = .external → s.r = s.w →
    xs.length = s.cfg.n - 1 →
    ∃ t, execAll ((xs ++ [x]).map .enq) s = .next t ∧
      (newResponses s t).map Prod.snd =
        (List.range xs.length).map (fun k => .enq true (k == 0) .none) ++ [.enq false false .overrun] ∧
      slotRead t.slots ((s.r + s.cfg.n - 1) % s.cfg.n) = some x ∧
      exec .deq t = .next { t with responses := t.responses ++ [(t.issuer, .deq none)] }

/-- 20_memory.md R47: the bytes `DEQ` returned are a subsequence of those enqueued, and without an overrun a prefix of
them. -/
def Obligations.DeliveryIsFifoSubsequence : Prop :=
  ∀ (is : List Instr) (s t : State), s.Inv → s.r = s.w → Instr.reset ∉ is → execAll is s = .next t →
    (returned (newResponses s t)).Sublist (enqueuedIn is s) ∧
    ((∀ p ∈ newResponses s t, p.2.cond ≠ .overrun) →
      enqueuedIn is s = returned (newResponses s t) ++ visible t)

/-- 20_memory.md R48: an answer of `IS_EMPTY` promises nothing about a later `DEQ`: `true` may be followed by a byte, and
`false` by `None` after an overrun. -/
def Obligations.StatusReadIsNoPromise : Prop :=
  (∃ (s : State) (x : Byte), s.Inv ∧ ∃ t, execAll [.isEmpty, .enq x, .deq] s = .next t ∧
    ∃ wk, (newResponses s t).map Prod.snd = [.isEmpty true, .enq true wk .none, .deq (some x)]) ∧
  (∃ (s : State) (x : Byte), s.Inv ∧ ∃ t, execAll [.isEmpty, .enq x, .deq] s = .next t ∧
    (newResponses s t).map Prod.snd = [.isEmpty false, .enq false false .overrun, .deq none])

/-! ## Control -/

/-- 42_control.md R120: `RESET` returns everything of R20 to its reset value from any position and any occupancy, with no
wake and no OVERRUN; in the reset state it changes nothing. That it keeps the configuration, the unserved events, the
schedule, the issuer and past responses is the model's choice (log 19). -/
def Obligations.ResetClearsTheBlock : Prop :=
  (∀ cfg : Config, decode cfg 0x500#12 = .ok .reset) ∧
  (∀ s : State, Instr.reset.wf s.cfg →
    ∃ t, exec .reset s = .next t ∧
      t = { s with
        bitCount := 0
        acc := 0x00
        slots := t.slots
        r := 0
        w := 0
        responses := s.responses ++ [(s.issuer, .reset)] } ∧
      (∀ a, slotRead t.slots a = none) ∧
      exec .reset t = .next { t with responses := t.responses ++ [(t.issuer, .reset)] })

/-- 10_state.md R31: the values after `RESET` and at power-on, in every configuration the spec admits; the queue is then
empty and not full. -/
def Obligations.ResetValues : Prop :=
  (∀ s t : State, exec .reset s = .next t →
    t.bitCount = 0 ∧ t.acc = 0x00 ∧ (∀ a, slotRead t.slots a = none) ∧ t.r = 0 ∧ t.w = 0 ∧
      emptyFlag t = true ∧ fullFlag t = false) ∧
  (∀ (c : Config) (bus producer consumer harness : List EventWord) (schedule : List Agent), c.wf →
    let s := poweredOn c bus producer consumer harness schedule
    s.bitCount = 0 ∧ s.acc = 0x00 ∧ (∀ a, slotRead s.slots a = none) ∧ s.r = 0 ∧ s.w = 0 ∧
      emptyFlag s = true ∧ fullFlag s = false) ∧
  (State.reset.bitCount = 0 ∧ State.reset.acc = 0x00 ∧ (∀ a, slotRead State.reset.slots a = none) ∧
    State.reset.r = 0 ∧ State.reset.w = 0)

/-! ## Refusals -/

/-- 30_encoding.md R63 (d), (e), 00_scope.md R5: `EDGE` is refused on the EXTERNAL port and `ENQ` on the SAMPLER port, and
every event in a configuration with `N < 2`. That each event is refused there (log 5), and that this reason is named
before the clauses of R63 (log 20), is the model's choice. -/
def Obligations.UnadmittedEventsAreRefused : Prop :=
  (∀ (d : Level) (s : State), 2 ≤ s.cfg.n → s.cfg.producerPort = .external →
    exec (.edge d) s = .refused (.word .edgeNotSampler)) ∧
  (∀ (x : Byte) (s : State), 2 ≤ s.cfg.n → s.cfg.producerPort = .sampler →
    exec (.enq x) s = .refused (.word .enqNotExternal)) ∧
  (∀ (i : Instr) (s : State), s.cfg.n < 2 → exec i s = .refused .capacityBelowTwo)

/-- 30_encoding.md R63, 60_exceptions.md R134: a refused word changes no state of the block, returns no response, and sets
the mark of the run. That the mark keeps its first reason, and that the run goes on past the word, which is used up, is
the model's choice (log 4). -/
def Obligations.RefusedWordOnlyMarksTheRun : Prop :=
  ∀ (ρ : Run) (a : Agent) (rest : List Agent) (e : EventWord) (es : List EventWord) (why : RefusedWord),
    ρ.fault = none → ρ.state.schedule = a :: rest → pendingAt a ρ.state = e :: es →
    decode ρ.state.cfg e = .error why →
    step ρ.state = .refused (.word why) ∧
    ρ.advance.refusalMark = ρ.refusalMark.or (some (.word why)) ∧ ρ.advance.fault = none ∧
    ρ.advance.state.schedule = rest ∧ pendingAt a ρ.advance.state = es ∧
    (∀ b ≠ a, pendingAt b ρ.advance.state = pendingAt b ρ.state) ∧
    ρ.advance.state.cfg = ρ.state.cfg ∧ ρ.advance.state.bitCount = ρ.state.bitCount ∧
    ρ.advance.state.acc = ρ.state.acc ∧ ρ.advance.state.slots = ρ.state.slots ∧ ρ.advance.state.r = ρ.state.r ∧
    ρ.advance.state.w = ρ.state.w ∧ ρ.advance.state.issuer = ρ.state.issuer ∧
    ρ.advance.state.responses = ρ.state.responses

/-- A refusal mark, once set, stays for the whole run (60_exceptions.md R134). That it stays the first reason is the
model's choice (log 4). -/
def Obligations.RefusalMarkIsKept : Prop :=
  ∀ (ρ : Run) (k : Nat) (why : Refusal), ρ.refusalMark = some why → (Run.steps k ρ).refusalMark = some why

/-- 60_exceptions.md R138, R139, 00_scope.md R11: an event from an agent that may not issue it is refused by the step; the
status reads come from either side, the producer side being the BUS, plus the PRODUCER on the EXTERNAL port. That a refusal
stands there, and that the BUS is meant among those that read, is the model's reading (log 6). -/
def Obligations.WrongAgentIsRefused : Prop :=
  (∀ (s : State) (a : Agent) (rest : List Agent) (e : EventWord) (es : List EventWord) (i : Instr),
    s.schedule = a :: rest → pendingAt a s = e :: es → decode s.cfg e = .ok i → mayIssue s.cfg a i = false →
    step s = .refused (.wrongPort a i)) ∧
  ∀ c : Config,
    (∀ a d, mayIssue c a (.edge d) = true ↔ a = .bus) ∧ (∀ a x, mayIssue c a (.enq x) = true ↔ a = .producer) ∧
    (∀ a, mayIssue c a .deq = true ↔ a = .consumer) ∧ (∀ a, mayIssue c a .reset = true ↔ a = .harness) ∧
    (∀ a, mayIssue c a .isEmpty = true ↔ a = .consumer ∨ a = .bus ∨ (a = .producer ∧ c.producerPort = .external)) ∧
    (∀ a, mayIssue c a .isFull = true ↔ a = .consumer ∨ a = .bus ∨ (a = .producer ∧ c.producerPort = .external))

/-! ## The step and the agents -/

/-- A step runs the decoded event (00_scope.md R12, 30_encoding.md R64): the agent whose turn it is has its first word
consumed and is the one answered. -/
def Obligations.StepRunsDecodedEvent : Prop :=
  ∀ (s : State) (a : Agent) (rest : List Agent) (e : EventWord) (es : List EventWord) (i : Instr),
    s.schedule = a :: rest → pendingAt a s = e :: es → decode s.cfg e = .ok i → mayIssue s.cfg a i = true →
    step s = exec i (takeEvent a s) ∧
    (takeEvent a s).schedule = rest ∧ pendingAt a (takeEvent a s) = es ∧
    (∀ b ≠ a, pendingAt b (takeEvent a s) = pendingAt b s) ∧ (takeEvent a s).issuer = a ∧
    (takeEvent a s).cfg = s.cfg ∧ (takeEvent a s).bitCount = s.bitCount ∧ (takeEvent a s).acc = s.acc ∧
    (takeEvent a s).slots = s.slots ∧ (takeEvent a s).r = s.r ∧ (takeEvent a s).w = s.w ∧
    (takeEvent a s).responses = s.responses

/-- An event placed for the next step is the one that runs, for every event (the model's choice, log 10). -/
def Obligations.PlacedWordRunsNext : Prop :=
  ∀ (i : Instr) (s : State),
    step (s.withFetchWord 16 (encode i).toNat) =
      exec i { s with cfg := configuredFor i s.cfg, issuer := agentOf i }

/-- 60_exceptions.md R142: with no event the block holds its state, and any later event finds it unchanged. That the turn
of an agent with nothing issued is used up is the model's choice (log 11). -/
def Obligations.BlockHoldsStateWithoutEvents : Prop :=
  (∀ s : State, s.schedule = [] → step s = .next s) ∧
  (∀ (s : State) (a : Agent) (rest : List Agent), s.schedule = a :: rest → pendingAt a s = [] →
    step s = .next { s with schedule := rest })

/-- 30_encoding.md R66: every admitted event returns exactly one response, of its own form, to the agent that issued it;
fields without meaning are 0 or `false`, and OVERRUN stands exactly for an enqueue that was not accepted. -/
def Obligations.EveryEventAnswersItsIssuer : Prop :=
  ∀ (s : State) (a : Agent) (e : EventWord) (i : Instr), s.Inv → nextEvent s = some (a, e) →
    decode s.cfg e = .ok i → mayIssue s.cfg a i = true →
    ∃ t q, step s = .next t ∧ t.responses = s.responses ++ [(a, q)] ∧ q.isFor i

/-- 20_memory.md R45, R46: along any serialization each agent's events take effect in its program order, one at each of
its turns, and none is lost, repeated or overtaken. -/
def Obligations.ProgramOrderPerPort : Prop :=
  ∀ (k : Nat) (s t : State), stepAll k s = .next t →
    t.schedule = s.schedule.drop k ∧
    ∀ a, pendingAt a t = (pendingAt a s).drop ((s.schedule.take k).count a)

/-- 60_exceptions.md R137: a `DEQ` and an edge that completes a frame on a full queue may take effect in either order;
`DEQ` first gives a byte and no loss, the edge first overruns and `DEQ` returns `None`. -/
def Obligations.RaceAtCapacityBoundary : Prop :=
  ∀ (s : State) (d : Level) (rest : List Agent) (bus consumer : List EventWord), s.Inv →
    s.cfg.producerPort = .sampler → s.bitCount = 10 → fullFlag s = true →
    s.bus = encode (.edge d) :: bus → s.consumer = encode .deq :: consumer →
    (s.schedule = .consumer :: .bus :: rest → ∃ t v wk, stepAll 2 s = .next t ∧
      (visible s).head? = some v ∧ visible t = (visible s).tail ++ [s.acc] ∧
      newResponses s t = [(.consumer, .deq (some v)), (.bus, .edge true s.acc true wk .none)]) ∧
    (s.schedule = .bus :: .consumer :: rest → ∃ t, stepAll 2 s = .next t ∧ visible t = [] ∧
      newResponses s t = [(.bus, .edge true s.acc false false .overrun), (.consumer, .deq none)])

/-- 10_state.md R33: which side writes what, along any step of an agent: the producer side writes `bit_count`, `acc`,
`w` and turns slots into `Some`; the consumer writes `r` and turns slots into `None`. -/
def Obligations.OwnershipBySide : Prop :=
  ∀ (s t : State) (a : Agent) (e : EventWord), nextEvent s = some (a, e) → step s = .next t →
    ((a = .bus ∨ a = .producer) → t.r = s.r ∧
      ∀ j, slotRead t.slots j ≠ slotRead s.slots j → slotRead t.slots j ≠ none) ∧
    (a = .producer → t.bitCount = s.bitCount ∧ t.acc = s.acc) ∧
    (a = .consumer → t.bitCount = s.bitCount ∧ t.acc = s.acc ∧ t.w = s.w ∧
      ∀ j, slotRead t.slots j ≠ slotRead s.slots j → slotRead t.slots j = none)

/-- 10_state.md R22: the consumer never reads the sampler: its events commute with any change of `bit_count` and `acc`,
response included. -/
def Obligations.ConsumerCannotSeeSampler : Prop :=
  ∀ (i : Instr) (s t : State) (b : BitCount) (a : Byte), i = .deq ∨ i = .isEmpty ∨ i = .isFull →
    exec i s = .next t →
    exec i { s with bitCount := b, acc := a } = .next { t with bitCount := b, acc := a }

/-- 10_state.md R34, 41_queue.md R107: stale slots and the absolute indices are unobservable: two states that agree on the
sampler and on the visible items answer every sequence of events alike. -/
def Obligations.StaleSlotsAreUnobservable : Prop :=
  ∀ (is : List Instr) (s s' t : State), s.Inv → s'.Inv → s.cfg = s'.cfg → s.bitCount = s'.bitCount →
    s.acc = s'.acc → visible s = visible s' → execAll is s = .next t →
    ∃ t', execAll is s' = .next t' ∧ visible t = visible t' ∧ t.bitCount = t'.bitCount ∧ t.acc = t'.acc ∧
      (newResponses s t).map Prod.snd = (newResponses s' t').map Prod.snd

/-! ## Frames -/

/-- What the storing events leave unchanged: `ENQ` and the edge that completes a frame store one byte at `w`. -/
def Obligations.StoringEventsFrame : Prop :=
  (∀ (x : Byte) (s t : State), exec (.enq x) s = .next t →
    t.cfg = s.cfg ∧ t.bitCount = s.bitCount ∧ t.acc = s.acc ∧ t.r = s.r ∧ t.issuer = s.issuer ∧
    t.schedule = s.schedule ∧ (∀ b, pendingAt b t = pendingAt b s) ∧
    ∀ a, a ≠ s.w → slotRead t.slots a = slotRead s.slots a) ∧
  (∀ (d : Level) (s t : State), exec (.edge d) s = .next t → s.bitCount = 10 →
    t.cfg = s.cfg ∧ t.r = s.r ∧ t.issuer = s.issuer ∧
    t.schedule = s.schedule ∧ (∀ b, pendingAt b t = pendingAt b s) ∧
    ∀ a, a ≠ s.w → slotRead t.slots a = slotRead s.slots a)

/-- What the other events leave unchanged: an edge within a frame touches the sampler alone (40_sampler.md R92 (f)), the
status reads and an empty `DEQ` touch nothing, and a `DEQ` that returns a byte touches `r` and the slot at `r`. That
`RESET` keeps the agents' unserved events and the schedule is the model's choice (log 19). -/
def Obligations.OtherEventsFrame : Prop :=
  (∀ (d : Level) (s t : State), exec (.edge d) s = .next t → s.bitCount ≠ 10 →
    t.cfg = s.cfg ∧ t.r = s.r ∧ t.w = s.w ∧ t.issuer = s.issuer ∧ t.schedule = s.schedule ∧
    (∀ b, pendingAt b t = pendingAt b s) ∧ ∀ a, slotRead t.slots a = slotRead s.slots a) ∧
  (∀ (i : Instr) (s t : State), i = .isEmpty ∨ i = .isFull ∨ (i = .deq ∧ s.r = s.w) → exec i s = .next t →
    t.cfg = s.cfg ∧ t.bitCount = s.bitCount ∧ t.acc = s.acc ∧ t.r = s.r ∧ t.w = s.w ∧ t.issuer = s.issuer ∧
    t.schedule = s.schedule ∧ (∀ b, pendingAt b t = pendingAt b s) ∧
    ∀ a, slotRead t.slots a = slotRead s.slots a) ∧
  (∀ s t : State, exec .deq s = .next t → s.r ≠ s.w →
    t.cfg = s.cfg ∧ t.bitCount = s.bitCount ∧ t.acc = s.acc ∧ t.w = s.w ∧ t.issuer = s.issuer ∧
    t.schedule = s.schedule ∧ (∀ b, pendingAt b t = pendingAt b s) ∧
    ∀ a, a ≠ s.r → slotRead t.slots a = slotRead s.slots a) ∧
  (∀ s t : State, exec .reset s = .next t →
    t.cfg = s.cfg ∧ t.issuer = s.issuer ∧ t.schedule = s.schedule ∧ ∀ b, pendingAt b t = pendingAt b s)

/-- 70_reset_and_hazards.md R151: the configuration does not change during a run. -/
def Obligations.ConfigurationIsFixed : Prop :=
  ∀ (k : Nat) (s t : State), stepAll k s = .next t → t.cfg = s.cfg

/-! ## The whole machine -/

/-- The invariant holds at power-on in every admitted configuration, whatever the environment will do. -/
def Obligations.InvariantHoldsAtPowerOn : Prop :=
  State.reset.Inv ∧
  ∀ (c : Config) (bus producer consumer harness : List EventWord) (schedule : List Agent), c.wf →
    (poweredOn c bus producer consumer harness schedule).Inv

/-- Every step keeps the invariant (10_state.md R21, R29, R35; 41_queue.md R106), from every state that satisfies it. -/
def Obligations.EveryStepKeepsInvariant : Prop :=
  ∀ s t : State, s.Inv → step s = .next t → t.Inv

/-- 60_exceptions.md R130: no run from power-on reaches a fault, in any admitted configuration, for any events of any
agents in any order, past refused words too. -/
def Obligations.NoRunFaults : Prop :=
  ∀ (c : Config) (bus producer consumer harness : List EventWord) (schedule : List Agent) (k : Nat), c.wf →
    (Run.steps k (Run.start (poweredOn c bus producer consumer harness schedule))).fault = none

/-! ## Scripts -/

/-- 30_encoding.md R65: `FRAME` is the eleven edges start, `byte[0]` to `byte[7]`, parity, stop, and running them from
between two frames delivers the byte whatever the three other levels are; `DRAIN k` is `k` times `DEQ`. -/
def Obligations.FrameScriptDeliversItsByte : Prop :=
  (∀ (b : Byte) (parity stop start : Level), ∃ data : List Level,
    expand (.frame b parity stop start) = .edge start :: (data.map .edge ++ [.edge parity, .edge stop]) ∧
    data.length = 8 ∧ ∀ j < 8, data[j]? = some (BitVec.ofBool (b.getLsbD j))) ∧
  (∀ (b : Byte) (parity stop start : Level) (s : State), (Instr.edge 0).wf s.cfg → s.bitCount = 0 → s.w < s.cfg.n →
    ∃ t, execAll (expand (.frame b parity stop start)) s = .next t ∧ t.bitCount = 0 ∧
      slotRead t.slots s.w = some b ∧ t.w = incN s.cfg.n s.w) ∧
  (∀ k, expand (.drain k) = List.replicate k .deq)

/-! ## Runs without end -/

/-- 60_exceptions.md R130: no step from a state of the invariant faults, and what a run does beside its steps keeps the
invariant: passing over a refused event, and taking an offer of the environment (log 21). -/
def Obligations.StepNeverFaults : Prop :=
  (∀ (s : State) (f : Fault), s.Inv → step s ≠ .fault f) ∧ (∀ s : State, s.Inv → (skipEvent s).Inv) ∧
  (∀ (o : Offer) (s : State), s.Inv → (offerTo o s).Inv)

/-- 60_exceptions.md R130, 00_scope.md R12: no endless run from power-on faults, whatever the environment offers before
each step (log 21). -/
def Obligations.EndlessRunsNeverFault : Prop :=
  ∀ (c : Config) (env : Environment) (k : Nat), c.wf →
    (env.run (Run.start (poweredOn c [] [] [] [] [])) k).fault = none ∧
    (env.run (Run.start (poweredOn c [] [] [] [] [])) k).state.Inv

/-- 20_memory.md R46, decision D24: in a fair endless run every issued event eventually takes effect. The word at place
`m` of an agent's list is the one served after `m` others of that agent's, and an admitted event completes there and
answers its agent. The form of the endless run is the model's choice (log 21). -/
def Obligations.FairRunsServeEveryEvent : Prop :=
  ∀ (env : Environment) (ρ : Run) (a : Agent) (k m : Nat) (e : EventWord), ρ.fault = none → ρ.state.Inv → env.Fair ρ →
    (pendingAt a (env.facing ρ k))[m]? = some e →
    ∃ d, nextEvent (env.facing ρ (k + d)) = some (a, e) ∧ env.served ρ a k d = m ∧
      ∀ i, decode ρ.state.cfg e = .ok i → mayIssue ρ.state.cfg a i = true →
        ∃ q, q.isFor i ∧ step (env.facing ρ (k + d)) = .next (env.run ρ (k + d + 1)).state ∧
          (env.run ρ (k + d + 1)).state.responses = (env.facing ρ (k + d)).responses ++ [(a, q)]
end

