-- ==== Sys2Proof/Laws/State.lean ====
section
/-! SUPPORT. One lemma per field and named update of the state, so that no proof unfolds an update. -/

namespace Sys2Proof.Machine

variable (s : State)

/-! `setSampler` -/

@[simp] theorem setSampler_cfg (bc : BitCount) (a : Byte) : (setSampler bc a s).cfg = s.cfg := rfl
@[simp] theorem setSampler_bitCount (bc : BitCount) (a : Byte) : (setSampler bc a s).bitCount = bc := rfl
@[simp] theorem setSampler_acc (bc : BitCount) (a : Byte) : (setSampler bc a s).acc = a := rfl
@[simp] theorem setSampler_slots (bc : BitCount) (a : Byte) : (setSampler bc a s).slots = s.slots := rfl
@[simp] theorem setSampler_r (bc : BitCount) (a : Byte) : (setSampler bc a s).r = s.r := rfl
@[simp] theorem setSampler_w (bc : BitCount) (a : Byte) : (setSampler bc a s).w = s.w := rfl
@[simp] theorem setSampler_bus (bc : BitCount) (a : Byte) : (setSampler bc a s).bus = s.bus := rfl
@[simp] theorem setSampler_producer (bc : BitCount) (a : Byte) : (setSampler bc a s).producer = s.producer := rfl
@[simp] theorem setSampler_consumer (bc : BitCount) (a : Byte) : (setSampler bc a s).consumer = s.consumer := rfl
@[simp] theorem setSampler_harness (bc : BitCount) (a : Byte) : (setSampler bc a s).harness = s.harness := rfl
@[simp] theorem setSampler_schedule (bc : BitCount) (a : Byte) : (setSampler bc a s).schedule = s.schedule := rfl
@[simp] theorem setSampler_issuer (bc : BitCount) (a : Byte) : (setSampler bc a s).issuer = s.issuer := rfl
@[simp] theorem setSampler_responses (bc : BitCount) (a : Byte) : (setSampler bc a s).responses = s.responses := rfl

/-! `setTail` -/

@[simp] theorem setTail_cfg (m : Memory) (i : Nat) : (setTail m i s).cfg = s.cfg := rfl
@[simp] theorem setTail_bitCount (m : Memory) (i : Nat) : (setTail m i s).bitCount = s.bitCount := rfl
@[simp] theorem setTail_acc (m : Memory) (i : Nat) : (setTail m i s).acc = s.acc := rfl
@[simp] theorem setTail_slots (m : Memory) (i : Nat) : (setTail m i s).slots = m := rfl
@[simp] theorem setTail_r (m : Memory) (i : Nat) : (setTail m i s).r = s.r := rfl
@[simp] theorem setTail_w (m : Memory) (i : Nat) : (setTail m i s).w = i := rfl
@[simp] theorem setTail_bus (m : Memory) (i : Nat) : (setTail m i s).bus = s.bus := rfl
@[simp] theorem setTail_producer (m : Memory) (i : Nat) : (setTail m i s).producer = s.producer := rfl
@[simp] theorem setTail_consumer (m : Memory) (i : Nat) : (setTail m i s).consumer = s.consumer := rfl
@[simp] theorem setTail_harness (m : Memory) (i : Nat) : (setTail m i s).harness = s.harness := rfl
@[simp] theorem setTail_schedule (m : Memory) (i : Nat) : (setTail m i s).schedule = s.schedule := rfl
@[simp] theorem setTail_issuer (m : Memory) (i : Nat) : (setTail m i s).issuer = s.issuer := rfl
@[simp] theorem setTail_responses (m : Memory) (i : Nat) : (setTail m i s).responses = s.responses := rfl

/-! `setHead` -/

@[simp] theorem setHead_cfg (m : Memory) (i : Nat) : (setHead m i s).cfg = s.cfg := rfl
@[simp] theorem setHead_bitCount (m : Memory) (i : Nat) : (setHead m i s).bitCount = s.bitCount := rfl
@[simp] theorem setHead_acc (m : Memory) (i : Nat) : (setHead m i s).acc = s.acc := rfl
@[simp] theorem setHead_slots (m : Memory) (i : Nat) : (setHead m i s).slots = m := rfl
@[simp] theorem setHead_r (m : Memory) (i : Nat) : (setHead m i s).r = i := rfl
@[simp] theorem setHead_w (m : Memory) (i : Nat) : (setHead m i s).w = s.w := rfl
@[simp] theorem setHead_bus (m : Memory) (i : Nat) : (setHead m i s).bus = s.bus := rfl
@[simp] theorem setHead_producer (m : Memory) (i : Nat) : (setHead m i s).producer = s.producer := rfl
@[simp] theorem setHead_consumer (m : Memory) (i : Nat) : (setHead m i s).consumer = s.consumer := rfl
@[simp] theorem setHead_harness (m : Memory) (i : Nat) : (setHead m i s).harness = s.harness := rfl
@[simp] theorem setHead_schedule (m : Memory) (i : Nat) : (setHead m i s).schedule = s.schedule := rfl
@[simp] theorem setHead_issuer (m : Memory) (i : Nat) : (setHead m i s).issuer = s.issuer := rfl
@[simp] theorem setHead_responses (m : Memory) (i : Nat) : (setHead m i s).responses = s.responses := rfl

/-! `respond` -/

@[simp] theorem respond_cfg (q : Response) : (respond q s).cfg = s.cfg := rfl
@[simp] theorem respond_bitCount (q : Response) : (respond q s).bitCount = s.bitCount := rfl
@[simp] theorem respond_acc (q : Response) : (respond q s).acc = s.acc := rfl
@[simp] theorem respond_slots (q : Response) : (respond q s).slots = s.slots := rfl
@[simp] theorem respond_r (q : Response) : (respond q s).r = s.r := rfl
@[simp] theorem respond_w (q : Response) : (respond q s).w = s.w := rfl
@[simp] theorem respond_bus (q : Response) : (respond q s).bus = s.bus := rfl
@[simp] theorem respond_producer (q : Response) : (respond q s).producer = s.producer := rfl
@[simp] theorem respond_consumer (q : Response) : (respond q s).consumer = s.consumer := rfl
@[simp] theorem respond_harness (q : Response) : (respond q s).harness = s.harness := rfl
@[simp] theorem respond_schedule (q : Response) : (respond q s).schedule = s.schedule := rfl
@[simp] theorem respond_issuer (q : Response) : (respond q s).issuer = s.issuer := rfl
@[simp] theorem respond_responses (q : Response) : (respond q s).responses = s.responses ++ [(s.issuer, q)] := rfl

/-! `resetBlock` -/

@[simp] theorem resetBlock_cfg : (resetBlock s).cfg = s.cfg := rfl
@[simp] theorem resetBlock_bitCount : (resetBlock s).bitCount = 0 := rfl
@[simp] theorem resetBlock_acc : (resetBlock s).acc = 0 := rfl
@[simp] theorem resetBlock_slots : (resetBlock s).slots = [] := rfl
@[simp] theorem resetBlock_r : (resetBlock s).r = 0 := rfl
@[simp] theorem resetBlock_w : (resetBlock s).w = 0 := rfl
@[simp] theorem resetBlock_bus : (resetBlock s).bus = s.bus := rfl
@[simp] theorem resetBlock_producer : (resetBlock s).producer = s.producer := rfl
@[simp] theorem resetBlock_consumer : (resetBlock s).consumer = s.consumer := rfl
@[simp] theorem resetBlock_harness : (resetBlock s).harness = s.harness := rfl
@[simp] theorem resetBlock_schedule : (resetBlock s).schedule = s.schedule := rfl
@[simp] theorem resetBlock_issuer : (resetBlock s).issuer = s.issuer := rfl
@[simp] theorem resetBlock_responses : (resetBlock s).responses = s.responses := rfl

/-! `passTurn` -/

@[simp] theorem passTurn_cfg : (passTurn s).cfg = s.cfg := rfl
@[simp] theorem passTurn_bitCount : (passTurn s).bitCount = s.bitCount := rfl
@[simp] theorem passTurn_acc : (passTurn s).acc = s.acc := rfl
@[simp] theorem passTurn_slots : (passTurn s).slots = s.slots := rfl
@[simp] theorem passTurn_r : (passTurn s).r = s.r := rfl
@[simp] theorem passTurn_w : (passTurn s).w = s.w := rfl
@[simp] theorem passTurn_bus : (passTurn s).bus = s.bus := rfl
@[simp] theorem passTurn_producer : (passTurn s).producer = s.producer := rfl
@[simp] theorem passTurn_consumer : (passTurn s).consumer = s.consumer := rfl
@[simp] theorem passTurn_harness : (passTurn s).harness = s.harness := rfl
@[simp] theorem passTurn_schedule : (passTurn s).schedule = s.schedule.tail := rfl
@[simp] theorem passTurn_issuer : (passTurn s).issuer = s.issuer := rfl
@[simp] theorem passTurn_responses : (passTurn s).responses = s.responses := rfl

/-! `setPending`, `consumeEvent`, `takeEvent` and the agents' lists -/

@[simp] theorem setPending_cfg (a : Agent) (es : List EventWord) : (setPending a es s).cfg = s.cfg := by
  cases a <;> rfl
@[simp] theorem consumeEvent_cfg (a : Agent) : (consumeEvent a s).cfg = s.cfg := by
  cases a <;> rfl
@[simp] theorem takeEvent_cfg (a : Agent) : (takeEvent a s).cfg = s.cfg := by
  cases a <;> rfl
@[simp] theorem setPending_bitCount (a : Agent) (es : List EventWord) : (setPending a es s).bitCount = s.bitCount := by
  cases a <;> rfl
@[simp] theorem consumeEvent_bitCount (a : Agent) : (consumeEvent a s).bitCount = s.bitCount := by
  cases a <;> rfl
@[simp] theorem takeEvent_bitCount (a : Agent) : (takeEvent a s).bitCount = s.bitCount := by
  cases a <;> rfl
@[simp] theorem setPending_acc (a : Agent) (es : List EventWord) : (setPending a es s).acc = s.acc := by
  cases a <;> rfl
@[simp] theorem consumeEvent_acc (a : Agent) : (consumeEvent a s).acc = s.acc := by
  cases a <;> rfl
@[simp] theorem takeEvent_acc (a : Agent) : (takeEvent a s).acc = s.acc := by
  cases a <;> rfl
@[simp] theorem setPending_slots (a : Agent) (es : List EventWord) : (setPending a es s).slots = s.slots := by
  cases a <;> rfl
@[simp] theorem consumeEvent_slots (a : Agent) : (consumeEvent a s).slots = s.slots := by
  cases a <;> rfl
@[simp] theorem takeEvent_slots (a : Agent) : (takeEvent a s).slots = s.slots := by
  cases a <;> rfl
@[simp] theorem setPending_r (a : Agent) (es : List EventWord) : (setPending a es s).r = s.r := by
  cases a <;> rfl
@[simp] theorem consumeEvent_r (a : Agent) : (consumeEvent a s).r = s.r := by
  cases a <;> rfl
@[simp] theorem takeEvent_r (a : Agent) : (takeEvent a s).r = s.r := by
  cases a <;> rfl
@[simp] theorem setPending_w (a : Agent) (es : List EventWord) : (setPending a es s).w = s.w := by
  cases a <;> rfl
@[simp] theorem consumeEvent_w (a : Agent) : (consumeEvent a s).w = s.w := by
  cases a <;> rfl
@[simp] theorem takeEvent_w (a : Agent) : (takeEvent a s).w = s.w := by
  cases a <;> rfl
@[simp] theorem setPending_schedule (a : Agent) (es : List EventWord) : (setPending a es s).schedule = s.schedule := by
  cases a <;> rfl
@[simp] theorem consumeEvent_schedule (a : Agent) : (consumeEvent a s).schedule = s.schedule.tail := by
  cases a <;> rfl
@[simp] theorem takeEvent_schedule (a : Agent) : (takeEvent a s).schedule = s.schedule.tail := by
  cases a <;> rfl
@[simp] theorem setPending_issuer (a : Agent) (es : List EventWord) : (setPending a es s).issuer = s.issuer := by
  cases a <;> rfl
@[simp] theorem consumeEvent_issuer (a : Agent) : (consumeEvent a s).issuer = s.issuer := by
  cases a <;> rfl
@[simp] theorem takeEvent_issuer (a : Agent) : (takeEvent a s).issuer = a := by
  cases a <;> rfl
@[simp] theorem setPending_responses (a : Agent) (es : List EventWord) : (setPending a es s).responses = s.responses := by
  cases a <;> rfl
@[simp] theorem consumeEvent_responses (a : Agent) : (consumeEvent a s).responses = s.responses := by
  cases a <;> rfl
@[simp] theorem takeEvent_responses (a : Agent) : (takeEvent a s).responses = s.responses := by
  cases a <;> rfl

@[simp] theorem pendingAt_setPending (a : Agent) (es : List EventWord) : pendingAt a (setPending a es s) = es := by
  cases a <;> rfl

theorem pendingAt_setPending_ne {a b : Agent} (es : List EventWord) (h : b ≠ a) :
    pendingAt b (setPending a es s) = pendingAt b s := by
  cases a <;> cases b <;> first | rfl | exact absurd rfl h

@[simp] theorem pendingAt_passTurn (a : Agent) : pendingAt a (passTurn s) = pendingAt a s := by
  cases a <;> rfl

@[simp] theorem pendingAt_takeEvent (a : Agent) : pendingAt a (takeEvent a s) = (pendingAt a s).tail := by
  cases a <;> rfl

theorem pendingAt_takeEvent_ne {a b : Agent} (h : b ≠ a) : pendingAt b (takeEvent a s) = pendingAt b s := by
  cases a <;> cases b <;> first | rfl | exact absurd rfl h

/-- Issuing an event next and then taking it leaves only its agent as the issuer. -/
theorem takeEvent_issueNext (a : Agent) (e : EventWord) : takeEvent a (issueNext a e s) = { s with issuer := a } := by
  cases a <;> rfl

/-! `issueAll` and `offerTo` -/

@[simp] theorem issueAll_cfg (ps : List (Agent × EventWord)) : (issueAll ps s).cfg = s.cfg := by
  induction ps generalizing s with
  | nil => rfl
  | cons p ps ih => exact (ih _).trans (setPending_cfg _ _ _)
@[simp] theorem issueAll_bitCount (ps : List (Agent × EventWord)) : (issueAll ps s).bitCount = s.bitCount := by
  induction ps generalizing s with
  | nil => rfl
  | cons p ps ih => exact (ih _).trans (setPending_bitCount _ _ _)
@[simp] theorem issueAll_acc (ps : List (Agent × EventWord)) : (issueAll ps s).acc = s.acc := by
  induction ps generalizing s with
  | nil => rfl
  | cons p ps ih => exact (ih _).trans (setPending_acc _ _ _)
@[simp] theorem issueAll_slots (ps : List (Agent × EventWord)) : (issueAll ps s).slots = s.slots := by
  induction ps generalizing s with
  | nil => rfl
  | cons p ps ih => exact (ih _).trans (setPending_slots _ _ _)
@[simp] theorem issueAll_r (ps : List (Agent × EventWord)) : (issueAll ps s).r = s.r := by
  induction ps generalizing s with
  | nil => rfl
  | cons p ps ih => exact (ih _).trans (setPending_r _ _ _)
@[simp] theorem issueAll_w (ps : List (Agent × EventWord)) : (issueAll ps s).w = s.w := by
  induction ps generalizing s with
  | nil => rfl
  | cons p ps ih => exact (ih _).trans (setPending_w _ _ _)
@[simp] theorem issueAll_schedule (ps : List (Agent × EventWord)) : (issueAll ps s).schedule = s.schedule := by
  induction ps generalizing s with
  | nil => rfl
  | cons p ps ih => exact (ih _).trans (setPending_schedule _ _ _)
@[simp] theorem issueAll_issuer (ps : List (Agent × EventWord)) : (issueAll ps s).issuer = s.issuer := by
  induction ps generalizing s with
  | nil => rfl
  | cons p ps ih => exact (ih _).trans (setPending_issuer _ _ _)
@[simp] theorem issueAll_responses (ps : List (Agent × EventWord)) : (issueAll ps s).responses = s.responses := by
  induction ps generalizing s with
  | nil => rfl
  | cons p ps ih => exact (ih _).trans (setPending_responses _ _ _)
@[simp] theorem offerTo_cfg (o : Offer) : (offerTo o s).cfg = s.cfg := issueAll_cfg _ o.words
@[simp] theorem offerTo_bitCount (o : Offer) : (offerTo o s).bitCount = s.bitCount := issueAll_bitCount _ o.words
@[simp] theorem offerTo_acc (o : Offer) : (offerTo o s).acc = s.acc := issueAll_acc _ o.words
@[simp] theorem offerTo_slots (o : Offer) : (offerTo o s).slots = s.slots := issueAll_slots _ o.words
@[simp] theorem offerTo_r (o : Offer) : (offerTo o s).r = s.r := issueAll_r _ o.words
@[simp] theorem offerTo_w (o : Offer) : (offerTo o s).w = s.w := issueAll_w _ o.words
@[simp] theorem offerTo_issuer (o : Offer) : (offerTo o s).issuer = s.issuer := issueAll_issuer _ o.words
@[simp] theorem offerTo_responses (o : Offer) : (offerTo o s).responses = s.responses := issueAll_responses _ o.words

@[simp] theorem offerTo_schedule (o : Offer) : (offerTo o s).schedule = s.schedule ++ o.turns := by
  show (issueAll o.words s).schedule ++ o.turns = _
  rw [issueAll_schedule]

theorem pendingAt_issue (a b : Agent) (e : EventWord) :
    pendingAt a (issue b e s) = pendingAt a s ++ if b = a then [e] else [] := by
  cases a <;> cases b <;> simp [issue, setPending, pendingAt]

theorem pendingAt_issueAll (a : Agent) (ps : List (Agent × EventWord)) :
    pendingAt a (issueAll ps s) = pendingAt a s ++ (ps.filter fun p => decide (p.1 = a)).map Prod.snd := by
  induction ps generalizing s with
  | nil => simp [issueAll]
  | cons p ps ih =>
    rw [issueAll, ih, pendingAt_issue]
    by_cases h : p.1 = a <;> simp [h]

/-- What an agent is offered comes after what it has issued already, in the order of the offer. -/
theorem pendingAt_offerTo (a : Agent) (o : Offer) :
    pendingAt a (offerTo o s) = pendingAt a s ++ (o.words.filter fun p => decide (p.1 = a)).map Prod.snd := by
  rw [← pendingAt_issueAll]
  cases a <;> rfl

end Sys2Proof.Machine
end

