-- ==== Sys2Proof/Laws/Storage.lean ====
section
/-! SUPPORT. The laws of the slot storage (spec/20_memory.md R40, R43): read after write, read after clear, and the
canonical form that every operation keeps. -/

namespace Sys2Proof.Machine

/-- The slot written reads as the byte stored; every other slot reads as before. -/
theorem slotRead_slotWrite (m : Memory) (i j : Nat) (b : Byte) :
    slotRead (slotWrite m i b) j = if j = i then some b else slotRead m j := by
  induction m with
  | nil => simp [slotWrite, slotRead]
  | cons c m ih =>
    obtain ⟨k, c⟩ := c
    simp only [slotWrite]
    split
    · simp [slotRead]
    · split
      · subst_vars
        simp only [slotRead]
        split <;> simp_all
      · simp only [slotRead, ih]
        split <;> split <;> simp_all

@[simp] theorem slotRead_slotWrite_self (m : Memory) (i : Nat) (b : Byte) : slotRead (slotWrite m i b) i = some b := by
  simp [slotRead_slotWrite]

theorem slotRead_slotWrite_ne (m : Memory) {i j : Nat} (b : Byte) (h : j ≠ i) :
    slotRead (slotWrite m i b) j = slotRead m j := by
  simp [slotRead_slotWrite, h]

/-- The slot cleared reads as `None`; every other slot reads as before. -/
theorem slotRead_slotClear (m : Memory) (i j : Nat) :
    slotRead (slotClear m i) j = if j = i then none else slotRead m j := by
  induction m with
  | nil => simp [slotClear, slotRead]
  | cons c m ih =>
    obtain ⟨k, c⟩ := c
    simp only [slotClear, List.filter_cons] at ih ⊢
    by_cases hk : k = i
    · subst hk
      simp only [bne_self_eq_false, Bool.false_eq_true, if_false, ih, slotRead]
      split <;> simp_all
    · simp only [bne_iff_ne, ne_eq, hk, not_false_eq_true, if_true, slotRead, ih]
      split <;> split <;> simp_all

@[simp] theorem slotRead_slotClear_self (m : Memory) (i : Nat) : slotRead (slotClear m i) i = none := by
  simp [slotRead_slotClear]

theorem slotRead_slotClear_ne (m : Memory) {i j : Nat} (h : j ≠ i) :
    slotRead (slotClear m i) j = slotRead m j := by
  simp [slotRead_slotClear, h]

/-- A write lists no index but the old ones and the one written. -/
theorem mem_slotWrite {m : Memory} {i : Nat} {b : Byte} {c : Host.Cell} (h : c ∈ slotWrite m i b) :
    c = (i, b) ∨ c ∈ m := by
  induction m with
  | nil => simpa [slotWrite] using h
  | cons d m ih =>
    obtain ⟨k, d⟩ := d
    simp only [slotWrite] at h
    split at h
    · simpa using h
    · split at h
      · rcases List.mem_cons.mp h with h | h
        · exact .inl h
        · exact .inr (List.mem_cons_of_mem _ h)
      · rcases List.mem_cons.mp h with h | h
        · exact .inr (h ▸ List.mem_cons_self)
        · exact (ih h).imp_right (List.mem_cons_of_mem _)

theorem wf_nil : Memory.wf [] := List.Pairwise.nil

/-- A write keeps the canonical form. -/
theorem wf_slotWrite {m : Memory} (i : Nat) (b : Byte) (h : m.wf) : (slotWrite m i b).wf := by
  induction m with
  | nil => simp [slotWrite, Memory.wf]
  | cons d m ih =>
    obtain ⟨k, d⟩ := d
    obtain ⟨hd, hm⟩ := List.pairwise_cons.mp h
    simp only [slotWrite]
    split
    case isTrue hik =>
      refine List.pairwise_cons.mpr ⟨fun c hc => ?_, h⟩
      rcases List.mem_cons.mp hc with rfl | hc
      · exact hik
      · exact Nat.lt_trans hik (hd c hc)
    case isFalse hik =>
      split
      case isTrue hk => subst hk; exact List.pairwise_cons.mpr ⟨hd, hm⟩
      case isFalse hk =>
        refine List.pairwise_cons.mpr ⟨fun c hc => ?_, ih hm⟩
        rcases mem_slotWrite hc with rfl | hc
        · exact Nat.lt_of_le_of_ne (Nat.le_of_not_lt hik) (Ne.symm hk)
        · exact hd c hc

/-- A clear keeps the canonical form. -/
theorem wf_slotClear {m : Memory} (i : Nat) (h : m.wf) : (slotClear m i).wf := List.Pairwise.filter _ h

theorem mem_slotClear {m : Memory} {i : Nat} {c : Host.Cell} (h : c ∈ slotClear m i) : c ∈ m :=
  (List.mem_filter.mp h).1

/-- In canonical form equal reads mean equal storage. -/
theorem slotRead_of_lt {m : Memory} {i : Nat} (h : ∀ c ∈ m, i < c.1) : slotRead m i = none := by
  induction m with
  | nil => rfl
  | cons d m ih =>
    obtain ⟨k, d⟩ := d
    have hk : i < k := h (k, d) List.mem_cons_self
    simp only [slotRead, if_neg (Nat.ne_of_lt hk)]
    exact ih fun c hc => h c (List.mem_cons_of_mem _ hc)

theorem eq_of_slotRead_eq {m m' : Memory} (h : m.wf) (h' : m'.wf) (hr : ∀ i, slotRead m i = slotRead m' i) :
    m = m' := by
  induction m generalizing m' with
  | nil =>
    cases m' with
    | nil => rfl
    | cons d m' => have := hr d.1; simp [slotRead] at this
  | cons c m ih =>
    obtain ⟨k, b⟩ := c
    cases m' with
    | nil => have := hr k; simp [slotRead] at this
    | cons c' m' =>
      obtain ⟨k', b'⟩ := c'
      obtain ⟨hc, hm⟩ := List.pairwise_cons.mp h
      obtain ⟨hc', hm'⟩ := List.pairwise_cons.mp h'
      have hk : k = k' := by
        rcases Nat.lt_trichotomy k k' with hlt | heq | hlt
        · have := hr k
          rw [slotRead_of_lt (m := (k', b') :: m')] at this
          · simp [slotRead] at this
          · intro c hc2
            rcases List.mem_cons.mp hc2 with rfl | hc2
            · exact hlt
            · exact Nat.lt_trans hlt (hc' c hc2)
        · exact heq
        · have := hr k'
          rw [slotRead_of_lt (m := (k, b) :: m)] at this
          · simp [slotRead] at this
          · intro c hc2
            rcases List.mem_cons.mp hc2 with rfl | hc2
            · exact hlt
            · exact Nat.lt_trans hlt (hc c hc2)
      subst hk
      have hb : b = b' := by have := hr k; simpa [slotRead] using this
      subst hb
      refine congrArg _ (ih hm hm' fun i => ?_)
      have := hr i
      simp only [slotRead] at this
      by_cases hi : i = k
      · subst hi
        rw [slotRead_of_lt hc, slotRead_of_lt hc']
      · simpa [hi] using this

end Sys2Proof.Machine
end

