-- ==== Sys2Proof/Laws/Queue.lean ====
section
/-! SUPPORT. The index arithmetic of the queue (spec/41_queue.md R108, spec/10_state.md R26), the list of visible
items (R107), and what the shared queue operations can do (R100, R101). -/

namespace Sys2Proof.Machine

variable {s t : State}

/-! Index arithmetic -/

theorem incN_eq_mod {n i : Nat} (h : i < n) : incN n i = (i + 1) % n := by
  unfold incN
  split
  · rw [Nat.mod_eq_of_lt (by omega)]
  · rw [show i + 1 = n by omega, Nat.mod_self]

theorem incN_lt {n i : Nat} (h : i < n) : incN n i < n := by
  unfold incN; split <;> omega

theorem add_mod_split {n i k : Nat} (hi : i < n) (hk : k < n) :
    (i + k) % n = if i + k < n then i + k else i + k - n := by
  split
  · exact Nat.mod_eq_of_lt ‹_›
  · rw [Nat.mod_eq_sub_mod (by omega), Nat.mod_eq_of_lt (by omega)]

theorem incN_add_mod {n i : Nat} (k : Nat) (h : i < n) : (incN n i + k) % n = (i + (k + 1)) % n := by
  rw [incN_eq_mod h, Nat.mod_add_mod]; congr 1; omega

/-- The visible occupancy without a remainder. -/
theorem count_split (hr : s.r < s.cfg.n) (hw : s.w < s.cfg.n) :
    count s = if s.r ≤ s.w then s.w - s.r else s.w + s.cfg.n - s.r := by
  unfold count
  split
  · rw [show s.w + (s.cfg.n - s.r) = s.w - s.r + s.cfg.n by omega, Nat.add_mod_right, Nat.mod_eq_of_lt (by omega)]
  · rw [Nat.mod_eq_of_lt (by omega)]; omega

theorem count_lt (hr : s.r < s.cfg.n) : count s < s.cfg.n := Nat.mod_lt _ (by omega)

/-- The write slot is the first one past the visible items. -/
theorem head_add_count (hr : s.r < s.cfg.n) (hw : s.w < s.cfg.n) : (s.r + count s) % s.cfg.n = s.w := by
  rw [add_mod_split hr (count_lt hr), count_split hr hw]
  repeat' split
  all_goals omega

/-- No visible slot is the write slot. -/
theorem visible_slot_ne {k : Nat} (hr : s.r < s.cfg.n) (hw : s.w < s.cfg.n) (hk : k < count s) :
    (s.r + k) % s.cfg.n ≠ s.w := by
  have := count_lt hr
  rw [add_mod_split hr (by omega)]
  rw [count_split hr hw] at hk
  revert hk
  repeat' split
  all_goals omega

theorem count_eq_zero (hr : s.r < s.cfg.n) (hw : s.w < s.cfg.n) : count s = 0 ↔ s.r = s.w := by
  rw [count_split hr hw]; split <;> omega

theorem count_eq_last (hr : s.r < s.cfg.n) (hw : s.w < s.cfg.n) (hn : 2 ≤ s.cfg.n) :
    count s = s.cfg.n - 1 ↔ incN s.cfg.n s.w = s.r := by
  rw [count_split hr hw]; unfold incN; repeat' split
  all_goals omega

/-! The list of items -/

@[simp] theorem itemsFrom_zero (n : Nat) (m : Memory) (i : Nat) : itemsFrom n m 0 i = [] := rfl

theorem itemsFrom_succ (n : Nat) (m : Memory) (k i : Nat) :
    itemsFrom n m (k + 1) i = (slotRead m i).toList ++ itemsFrom n m k (incN n i) := rfl

/-- The last of the items comes last. -/
theorem itemsFrom_snoc {n i : Nat} (m : Memory) (k : Nat) (h : i < n) :
    itemsFrom n m (k + 1) i = itemsFrom n m k i ++ (slotRead m ((i + k) % n)).toList := by
  induction k generalizing i with
  | zero => simp [itemsFrom, Nat.mod_eq_of_lt h]
  | succ k ih =>
    rw [itemsFrom_succ, ih (incN_lt h), itemsFrom_succ n m k, List.append_assoc, incN_add_mod k h]

/-- The items depend on the visible slots alone. -/
theorem itemsFrom_congr {n i : Nat} {m m' : Memory} {k : Nat} (h : i < n)
    (hm : ∀ j < k, slotRead m ((i + j) % n) = slotRead m' ((i + j) % n)) :
    itemsFrom n m k i = itemsFrom n m' k i := by
  induction k with
  | zero => rfl
  | succ k ih =>
    rw [itemsFrom_snoc m k h, itemsFrom_snoc m' k h, ih fun j hj => hm j (by omega), hm k (by omega)]

theorem length_itemsFrom {n i : Nat} {m : Memory} {k : Nat} (h : i < n)
    (hm : ∀ j < k, slotRead m ((i + j) % n) ≠ none) : (itemsFrom n m k i).length = k := by
  induction k with
  | zero => rfl
  | succ k ih =>
    obtain ⟨b, hb⟩ := Option.ne_none_iff_exists'.mp (hm k (by omega))
    rw [itemsFrom_snoc m k h, hb, List.length_append, ih fun j hj => hm j (by omega)]
    rfl

/-! What the shared operations can do -/

/-- R100: with `w` in the slot space the enqueue writes, advances and returns. -/
theorem enqueue_eq (x : Byte) (hw : s.w < s.cfg.n) :
    enqueue x s = .ok
      { state := setTail (slotWrite s.slots s.w x) (incN s.cfg.n s.w) s
        accepted := acceptedFlag (incN s.cfg.n s.w) s.r
        wake := wakeFlag (emptyFlag s) (acceptedFlag (incN s.cfg.n s.w) s.r) } := by
  simp [enqueue, inSpace, hw]

theorem enqueue_ok {x : Byte} {p : Pushed} (h : enqueue x s = .ok p) :
    s.w < s.cfg.n ∧ p =
      { state := setTail (slotWrite s.slots s.w x) (incN s.cfg.n s.w) s
        accepted := acceptedFlag (incN s.cfg.n s.w) s.r
        wake := wakeFlag (emptyFlag s) (acceptedFlag (incN s.cfg.n s.w) s.r) } := by
  by_cases hw : s.w < s.cfg.n
  · rw [enqueue_eq x hw] at h; exact ⟨hw, (Except.ok.inj h).symm⟩
  · simp [enqueue, inSpace, hw] at h

/-- R101: with `r` in the slot space and an item there, the item is taken. -/
theorem takeHead_eq {v : Byte} (hr : s.r < s.cfg.n) (hv : slotRead s.slots s.r = some v) :
    takeHead s = .ok (v, setHead (slotClear s.slots s.r) (incN s.cfg.n s.r) s) := by
  simp [takeHead, inSpace, hr, hv]

theorem takeHead_ok {v : Byte} (h : takeHead s = .ok (v, t)) :
    s.r < s.cfg.n ∧ slotRead s.slots s.r = some v ∧ t = setHead (slotClear s.slots s.r) (incN s.cfg.n s.r) s := by
  by_cases hr : s.r < s.cfg.n
  · cases hv : slotRead s.slots s.r with
    | none => simp [takeHead, inSpace, hr, hv] at h
    | some b =>
      rw [takeHead_eq hr hv] at h
      obtain ⟨rfl, rfl⟩ := Prod.mk.inj (Except.ok.inj h)
      exact ⟨hr, rfl, rfl⟩
  · simp [takeHead, inSpace, hr] at h

end Sys2Proof.Machine
end

