-- ==== Sys2Proof/Laws/Exec.lean ====
section
/-! SUPPORT. What each event can do: admission, and for each meaning the states it can answer
(spec/40_sampler.md R80, spec/41_queue.md R100 to R103, spec/42_control.md R120). -/

namespace Sys2Proof.Machine

variable {s t : State} {i : Instr} {d : Level} {x : Byte}

/-! Admission -/

/-- The producer port refuses exactly the events it does not admit. -/
theorem portRefusal_eq_none_iff (c : Config) (i : Instr) : portRefusal c.producerPort i = none ↔ i.admittedBy c := by
  rcases c with ⟨n, _ | _⟩ <;> cases i <;> simp [portRefusal, Instr.admittedBy]

theorem wf_iff (c : Config) (i : Instr) : i.wf c ↔ 2 ≤ c.n ∧ i.admittedBy c := by
  simp [Instr.wf, Config.wf]

/-- A well-formed event runs. -/
theorem whenAdmitted_of_wf {k : Host.Outcome State Fault Refusal} (h : i.wf s.cfg) : whenAdmitted i s k = k := by
  obtain ⟨hn, ha⟩ := (wf_iff _ _).mp h
  simp [whenAdmitted, Nat.not_lt.mpr hn, (portRefusal_eq_none_iff _ _).mpr ha]

/-- An event that answers a next state is well formed. -/
theorem whenAdmitted_next {k : Host.Outcome State Fault Refusal} (h : whenAdmitted i s k = .next t) :
    i.wf s.cfg ∧ k = .next t := by
  unfold whenAdmitted at h
  split at h
  · cases h
  · split at h
    · cases h
    · rename_i hn hp
      exact ⟨(wf_iff _ _).mpr ⟨by omega, (portRefusal_eq_none_iff _ _).mp hp⟩, h⟩

/-- A fault is the event's own. -/
theorem whenAdmitted_fault {k : Host.Outcome State Fault Refusal} {f : Fault} (h : whenAdmitted i s k = .fault f) :
    i.wf s.cfg ∧ k = .fault f := by
  unfold whenAdmitted at h
  split at h
  · cases h
  · split at h
    · cases h
    · rename_i hn hp
      exact ⟨(wf_iff _ _).mpr ⟨by omega, (portRefusal_eq_none_iff _ _).mp hp⟩, h⟩

/-! The sampler -/

/-- The accumulator after an edge that completes no frame. -/
def accAfter (s : State) (d : Level) : Byte :=
  if 1 ≤ s.bitCount.toNat ∧ s.bitCount.toNat ≤ 8 then shiftIn d s.acc else s.acc

/-- The state after the edge that completes a frame. -/
def frameDone (s : State) : State :=
  let ok := acceptedFlag (incN s.cfg.n s.w) s.r
  respond (.edge true s.acc ok (wakeFlag (emptyFlag s) ok) (condOf ok))
    (setSampler 0 0 (setTail (slotWrite s.slots s.w s.acc) (incN s.cfg.n s.w) s))

/-- Before the last edge of a frame (R81 to R83): count, and shift in the DATA phase. -/
theorem execEdge_midFrame (h : (Instr.edge d).wf s.cfg) (hb : s.bitCount.toNat < 10) :
    execEdge d s = .next (respond noFrame (setSampler (s.bitCount + 1) (accAfter s d) s)) := by
  have hne : ¬ s.bitCount.toNat + 1 = frameLen := by unfold frameLen; omega
  rw [execEdge, whenAdmitted_of_wf h]
  unfold phaseOf accAfter
  by_cases h0 : s.bitCount.toNat = 0
  · simp [h0, sample]
  · by_cases h8 : s.bitCount.toNat ≤ 8
    · simp [h0, h8, hne, sample, Nat.one_le_iff_ne_zero]
    · have h9 : s.bitCount.toNat = 9 := by omega
      simp [h9, sample]

/-- The last edge of a frame (R85). -/
theorem execEdge_frameDone (h : (Instr.edge d).wf s.cfg) (hb : s.bitCount.toNat = 10) (hw : s.w < s.cfg.n) :
    execEdge d s = .next (frameDone s) := by
  rw [execEdge, whenAdmitted_of_wf h]
  simp [phaseOf, hb, sample, completeFrame, enqueue_eq s.acc hw, frameDone]

theorem execEdge_fault (h : (Instr.edge d).wf s.cfg) (hb : 10 < s.bitCount.toNat) :
    execEdge d s = .fault .bitCountOutOfRange := by
  rw [execEdge, whenAdmitted_of_wf h]
  have : phaseOf s.bitCount = none := by unfold phaseOf; repeat' split
                                         all_goals first | omega | rfl
  simp [this]

/-- Everything `EDGE` can answer as a next state. -/
theorem execEdge_next (h : execEdge d s = .next t) :
    (Instr.edge d).wf s.cfg ∧
      ((s.bitCount.toNat < 10 ∧ t = respond noFrame (setSampler (s.bitCount + 1) (accAfter s d) s)) ∨
        (s.bitCount.toNat = 10 ∧ s.w < s.cfg.n ∧ t = frameDone s)) := by
  have hwf := (whenAdmitted_next h).1
  refine ⟨hwf, ?_⟩
  rcases Nat.lt_trichotomy s.bitCount.toNat 10 with hb | hb | hb
  · rw [execEdge_midFrame hwf hb] at h
    exact .inl ⟨hb, (Host.Outcome.next.inj h).symm⟩
  · by_cases hw : s.w < s.cfg.n
    · rw [execEdge_frameDone hwf hb hw] at h
      exact .inr ⟨hb, hw, (Host.Outcome.next.inj h).symm⟩
    · rw [execEdge, whenAdmitted_of_wf hwf] at h
      simp [phaseOf, hb, completeFrame, enqueue, inSpace, hw] at h
  · rw [execEdge_fault hwf hb] at h; cases h

/-! The queue -/

/-- The state after an external enqueue. -/
def enqDone (s : State) (x : Byte) : State :=
  let ok := acceptedFlag (incN s.cfg.n s.w) s.r
  respond (.enq ok (wakeFlag (emptyFlag s) ok) (condOf ok))
    (setTail (slotWrite s.slots s.w x) (incN s.cfg.n s.w) s)

/-- The state after a dequeue that returns an item. -/
def deqDone (s : State) (v : Byte) : State :=
  respond (.deq (some v)) (setHead (slotClear s.slots s.r) (incN s.cfg.n s.r) s)

theorem execEnq_eq (h : (Instr.enq x).wf s.cfg) (hw : s.w < s.cfg.n) : execEnq x s = .next (enqDone s x) := by
  rw [execEnq, whenAdmitted_of_wf h]
  simp [enqueue_eq x hw, enqDone]

theorem execEnq_next (h : execEnq x s = .next t) :
    (Instr.enq x).wf s.cfg ∧ s.w < s.cfg.n ∧ t = enqDone s x := by
  have hwf := (whenAdmitted_next h).1
  by_cases hw : s.w < s.cfg.n
  · rw [execEnq_eq hwf hw] at h
    exact ⟨hwf, hw, (Host.Outcome.next.inj h).symm⟩
  · rw [execEnq, whenAdmitted_of_wf hwf] at h
    simp [enqueue, inSpace, hw] at h

theorem execDeq_empty (h : Instr.deq.wf s.cfg) (he : s.r = s.w) : execDeq s = .next (respond (.deq none) s) := by
  rw [execDeq, whenAdmitted_of_wf h]
  simp [emptyFlag, he]

theorem execDeq_item {v : Byte} (h : Instr.deq.wf s.cfg) (he : s.r ≠ s.w) (hr : s.r < s.cfg.n)
    (hv : slotRead s.slots s.r = some v) : execDeq s = .next (deqDone s v) := by
  rw [execDeq, whenAdmitted_of_wf h]
  simp [emptyFlag, he, takeHead_eq hr hv, deqDone]

/-- Everything `DEQ` can answer as a next state. -/
theorem execDeq_next (h : execDeq s = .next t) :
    Instr.deq.wf s.cfg ∧
      ((s.r = s.w ∧ t = respond (.deq none) s) ∨
        (s.r ≠ s.w ∧ s.r < s.cfg.n ∧ ∃ v, slotRead s.slots s.r = some v ∧ t = deqDone s v)) := by
  have hwf := (whenAdmitted_next h).1
  refine ⟨hwf, ?_⟩
  by_cases he : s.r = s.w
  · rw [execDeq_empty hwf he] at h
    exact .inl ⟨he, (Host.Outcome.next.inj h).symm⟩
  · refine .inr ⟨he, ?_⟩
    rw [execDeq, whenAdmitted_of_wf hwf] at h
    simp only [emptyFlag, beq_iff_eq, he, if_false] at h
    cases hq : takeHead s with
    | error f => simp [hq] at h
    | ok p =>
      obtain ⟨v, u⟩ := p
      obtain ⟨hr, hv, rfl⟩ := takeHead_ok hq
      simp only [hq] at h
      exact ⟨hr, v, hv, (Host.Outcome.next.inj h).symm⟩

theorem execIsEmpty_eq (h : Instr.isEmpty.wf s.cfg) :
    execIsEmpty s = .next (respond (.isEmpty (emptyFlag s)) s) := by
  rw [execIsEmpty, whenAdmitted_of_wf h]

theorem execIsEmpty_next (h : execIsEmpty s = .next t) :
    Instr.isEmpty.wf s.cfg ∧ t = respond (.isEmpty (emptyFlag s)) s :=
  ⟨(whenAdmitted_next h).1, (Host.Outcome.next.inj (whenAdmitted_next h).2).symm⟩

theorem execIsFull_eq (h : Instr.isFull.wf s.cfg) : execIsFull s = .next (respond (.isFull (fullFlag s)) s) := by
  rw [execIsFull, whenAdmitted_of_wf h]

theorem execIsFull_next (h : execIsFull s = .next t) :
    Instr.isFull.wf s.cfg ∧ t = respond (.isFull (fullFlag s)) s :=
  ⟨(whenAdmitted_next h).1, (Host.Outcome.next.inj (whenAdmitted_next h).2).symm⟩

/-! Control -/

theorem execReset_eq (h : Instr.reset.wf s.cfg) : execReset s = .next (respond .reset (resetBlock s)) := by
  rw [execReset, whenAdmitted_of_wf h]

theorem execReset_next (h : execReset s = .next t) :
    Instr.reset.wf s.cfg ∧ t = respond .reset (resetBlock s) :=
  ⟨(whenAdmitted_next h).1, (Host.Outcome.next.inj (whenAdmitted_next h).2).symm⟩

end Sys2Proof.Machine
end

