-- ==== Sys2Proof/Laws/PerInstr.lean ====
section
/-! SUPPORT. Laws of the events as syntax, one lemma per constructor. -/

namespace Sys2Proof.Laws.OpcodeRow

/-- The `mask` of an event's row in spec/opcode_table.json. -/
def mask : Instr → EventWord
  | .edge _ => 0xFFE
  | .enq _ => 0xF00
  | .deq => 0xFFF
  | .isEmpty => 0xFFF
  | .isFull => 0xFFF
  | .reset => 0xFFF

/-- The `match` of an event's row in spec/opcode_table.json. -/
def pattern : Instr → EventWord
  | .edge _ => 0x000
  | .enq _ => 0x100
  | .deq => 0x200
  | .isEmpty => 0x300
  | .isFull => 0x400
  | .reset => 0x500

/-- The word of an event lies in its own row of the opcode table. -/
def Statement (i : Instr) : Prop := encode i &&& mask i = pattern i

theorem edge (d : Level) : Statement (.edge d) := by
  revert d; unfold Statement; decide

theorem enq (x : Byte) : Statement (.enq x) := by
  show (0x1#4 ++ x) &&& (0xF#4 ++ 0#8) = 0x1#4 ++ 0#8
  rw [BitVec.and_append]; simp

theorem deq : Statement .deq := by unfold Statement; decide

theorem isEmpty : Statement .isEmpty := by unfold Statement; decide

theorem isFull : Statement .isFull := by unfold Statement; decide

theorem reset : Statement .reset := by unfold Statement; decide

end Sys2Proof.Laws.OpcodeRow
end

