-- ==== Sys2Proof/Laws/Step.lean ====
section
/-! SUPPORT. What a step can do: which event takes effect, and what every event leaves alone
(spec/00_scope.md R12, spec/20_memory.md R44, R45). -/

namespace Sys2Proof.Machine

variable {s t : State} {a : Agent} {e : EventWord} {i : Instr}

/-- The next event is the first of the agent whose turn it is. -/
theorem nextEvent_of {rest : List Agent} {es : List EventWord} (hs : s.schedule = a :: rest)
    (hp : pendingAt a s = e :: es) : nextEvent s = some (a, e) := by
  simp [nextEvent, hs, hp]

theorem nextEvent_some (h : nextEvent s = some (a, e)) :
    ∃ rest es, s.schedule = a :: rest ∧ pendingAt a s = e :: es := by
  unfold nextEvent at h
  split at h
  · cases h
  · rename_i b rest hs
    split at h
    · cases h
    · rename_i e' es hp
      cases h
      exact ⟨rest, es, hs, hp⟩

/-- An event that decodes and that its agent may issue is executed. -/
theorem step_event (hn : nextEvent s = some (a, e)) (hd : decode s.cfg e = .ok i) (hm : mayIssue s.cfg a i = true) :
    step s = exec i (takeEvent a s) := by
  simp [step, hn, readEvent, hd, hm]

/-- Everything a step can answer as a next state. -/
theorem step_next (h : step s = .next t) :
    (nextEvent s = none ∧ t = passTurn s) ∨
      ∃ a e i, nextEvent s = some (a, e) ∧ decode s.cfg e = .ok i ∧ mayIssue s.cfg a i = true ∧
        exec i (takeEvent a s) = .next t := by
  unfold step at h
  cases hn : nextEvent s with
  | none => simp only [hn] at h; exact .inl ⟨rfl, (Host.Outcome.next.inj h).symm⟩
  | some p =>
    obtain ⟨a, e⟩ := p
    simp only [hn, readEvent] at h
    cases hd : decode s.cfg e with
    | error w => simp [hd] at h
    | ok i =>
      by_cases hm : mayIssue s.cfg a i = true
      · simp only [hd, hm, if_true] at h
        exact .inr ⟨a, e, i, rfl, hd, hm, h⟩
      · simp [hd, hm] at h

/-- One step of the host's run, for any machine. -/
theorem run_succ (M : Host.Core) (k : Nat) (s : M.State) :
    M.run (k + 1) s =
      match M.step s with
      | .next t => M.run k t
      | .fault f => .fault f
      | .refused why => .refused why := by
  cases h : M.step s <;> simp only [Host.Core.run, h]

/-- The host's run of this machine is `stepAll`. -/
theorem run_eq_stepAll (k : Nat) (s : State) : Host.Core.run Sys2Proof.core k s = stepAll k s := by
  induction k generalizing s with
  | zero => rfl
  | succ k ih =>
    refine (run_succ Sys2Proof.core k s).trans ?_
    have hstep : Sys2Proof.core.step s = step s := rfl
    rw [hstep]
    simp only [stepAll]
    cases step s with
    | next t => exact ih t
    | fault f => rfl
    | refused w => rfl

theorem steps_succ (k : Nat) (ρ : Run) : Run.steps (k + 1) ρ = (Run.steps k ρ).advance := by
  induction k generalizing ρ with
  | zero => rfl
  | succ k ih => exact ih ρ.advance

/-- With nothing offered an endless run is the run of the events already there. -/
theorem run_quiet (k : Nat) (ρ : Run) : Environment.run (fun _ => ⟨[], []⟩) ρ k = Run.steps k ρ := by
  induction k with
  | zero => rfl
  | succ k ih => rw [steps_succ, ← ih]; simp [Environment.run, Run.offered, offerTo, issueAll, giveTurns]

theorem stepAll_succ {k : Nat} (h : stepAll (k + 1) s = .next t) :
    ∃ u, step s = .next u ∧ stepAll k u = .next t := by
  simp only [stepAll] at h
  cases hs : step s with
  | next u => simp only [hs] at h; exact ⟨u, rfl, h⟩
  | fault f => simp [hs] at h
  | refused w => simp [hs] at h

theorem execAll_cons {is : List Instr} (h : execAll (i :: is) s = .next t) :
    ∃ u, exec i s = .next u ∧ execAll is u = .next t := by
  simp only [execAll] at h
  cases hs : exec i s with
  | next u => simp only [hs] at h; exact ⟨u, rfl, h⟩
  | fault f => simp [hs] at h
  | refused w => simp [hs] at h

theorem execAll_append (is js : List Instr) (s : State) :
    execAll (is ++ js) s =
      match execAll is s with
      | .next t => execAll js t
      | .fault f => .fault f
      | .refused w => .refused w := by
  induction is generalizing s with
  | nil => rfl
  | cons i is ih =>
    simp only [List.cons_append, execAll]
    cases exec i s with
    | next t => exact ih t
    | fault f => rfl
    | refused w => rfl

end Sys2Proof.Machine
end

