-- ==== Sys2Proof/Tests/Slice0.lean ====
section
/-! SUPPORT. The model's own tests, with expected values from spec/95_test_vectors.md (the vector's id stands in the
comment) or from the encodings of spec/30_encoding.md, and the witnesses of the statements' hypotheses. -/

namespace Sys2Proof.Tests

open Sys2Proof.Machine

/-! ## Helpers -/

/-- The next state, if there is one. -/
def after (o : Host.Outcome State Fault Refusal) : Option State :=
  match o with
  | .next t => some t
  | .fault _ => none
  | .refused _ => none

/-- The fault, if there is one. -/
def faultOf (o : Host.Outcome State Fault Refusal) : Option Fault :=
  match o with
  | .next _ => none
  | .fault f => some f
  | .refused _ => none

/-- The refusal, if there is one. -/
def refusalOf (o : Host.Outcome State Fault Refusal) : Option Refusal :=
  match o with
  | .next _ => none
  | .fault _ => none
  | .refused why => some why

/-- The last response of an outcome. -/
def lastResponse (o : Host.Outcome State Fault Refusal) : Option Response :=
  (after o).bind fun t => t.responses.getLast?.map Prod.snd

/-- A sampler at a position of the frame, with an empty queue. -/
def samplerAt (bc : BitCount) (a : Byte) : State := { State.reset with bitCount := bc, acc := a }

/-- A queue on its own (`PRODUCER_PORT = EXTERNAL`, N = 5). -/
def queueAt (r w : Nat) (m : Memory) : State :=
  { State.reset with cfg := { n := 5, producerPort := .external }, r := r, w := w, slots := m }

/-- Four visible items, the full queue of Q-2. -/
def fourItems : Memory := [(0, 0x01), (1, 0x02), (2, 0x03), (3, 0x04)]

/-- A full queue on its own. -/
def fullQueue : State := queueAt 0 4 fourItems

/-- A full queue under the sampler, one edge before the end of a frame (S-0f). -/
def fullSampler : State := { samplerAt 10 0x87 with w := 4, slots := fourItems }

/-- Words issued by the BUS and the CONSUMER, the race of P5, with the order of their turns. -/
def racing (order : List Agent) : State := { fullSampler with bus := [0x001], consumer := [0x200], schedule := order }

/-! ## Well-formedness: each check refuses an ill-formed term -/

theorem test_wf_refuses_small_capacity : Instr.deq.wf { n := 1, producerPort := .sampler } = false := by decide
theorem test_wf_refuses_edge_on_external : (Instr.edge 1).wf { n := 5, producerPort := .external } = false := by decide
theorem test_wf_refuses_enq_on_sampler : (Instr.enq 0x1C).wf { n := 5, producerPort := .sampler } = false := by decide
theorem test_wf_admits_smallest_capacity : Instr.deq.wf { n := 2, producerPort := .external } = true := by decide

/-! ## Decoding: words written out from the encodings of R61, R62 (E-1 to E-17) -/

theorem test_decode_edge_low : decode ⟨5, .sampler⟩ 0b0000_0000_0000#12 = .ok (.edge 0) := by decide
theorem test_decode_edge_high : decode ⟨5, .sampler⟩ 0b0000_0000_0001#12 = .ok (.edge 1) := by decide
theorem test_decode_edge_bit_seven : decode ⟨5, .sampler⟩ 0b0000_1000_0000#12 = .error .edgePayload := by decide
theorem test_decode_edge_external : decode ⟨5, .external⟩ 0b0000_0000_0001#12 = .error .edgeNotSampler := by decide
theorem test_decode_enq : decode ⟨5, .external⟩ 0b0001_0001_1100#12 = .ok (.enq 0x1C) := by decide
theorem test_decode_enq_ff : decode ⟨5, .external⟩ 0b0001_1111_1111#12 = .ok (.enq 0xFF) := by decide
theorem test_decode_enq_sampler : decode ⟨5, .sampler⟩ 0b0001_0001_1100#12 = .error .enqNotExternal := by decide
theorem test_decode_deq : decode ⟨5, .sampler⟩ 0b0010_0000_0000#12 = .ok .deq := by decide
theorem test_decode_deq_payload : decode ⟨5, .sampler⟩ 0b0010_0000_0001#12 = .error .payloadNotZero := by decide
theorem test_decode_is_empty : decode ⟨5, .external⟩ 0b0011_0000_0000#12 = .ok .isEmpty := by decide
theorem test_decode_is_full : decode ⟨5, .external⟩ 0b0100_0000_0000#12 = .ok .isFull := by decide
theorem test_decode_is_full_payload : decode ⟨5, .sampler⟩ 0b0100_1111_1111#12 = .error .payloadNotZero := by decide
theorem test_decode_reset : decode ⟨5, .sampler⟩ 0b0101_0000_0000#12 = .ok .reset := by decide
theorem test_decode_reserved_low : decode ⟨5, .sampler⟩ 0b0110_0000_0000#12 = .error .reservedOp := by decide
theorem test_decode_reserved_high : decode ⟨5, .external⟩ 0b1111_1111_1111#12 = .error .reservedOp := by decide
theorem test_encode_words :
    [Instr.edge 1, .enq 0x1C, .deq, .isEmpty, .isFull, .reset].map encode =
      [0x001, 0x11C, 0x200, 0x300, 0x400, 0x500] := by decide
theorem test_table_word_above_twelve_bits : decodeTableWord 16 0x1200 = none := by decide
theorem test_table_word_short : decodeTableWord 8 0x01 = some (.edge 1) := by decide

/-! ## The storage -/

theorem test_storage_sorted : slotWrite (slotWrite [] 3 0xD4) 0 0xF6 = [(0, 0xF6), (3, 0xD4)] := by decide
theorem test_storage_overwrites : slotWrite fourItems 0 0x06 = [(0, 0x06), (1, 0x02), (2, 0x03), (3, 0x04)] := by decide

/-! ## EDGE -/

/-- S-0b: a DATA edge shifts toward bit 0. -/
theorem test_edge_data :
    (after (exec (.edge 0) (samplerAt 1 0xFF))).map (fun t => (t.bitCount, t.acc)) = some (2, 0x7F) := by decide
/-- S-0f: the completing edge on a full queue overruns and resets the sampler. -/
theorem test_edge_overrun :
    (after (exec (.edge 1) fullSampler)).map (fun t => (t.bitCount, t.acc, t.w, slotRead t.slots 4)) =
      some (0, 0x00, 0, some 0x87) ∧
    lastResponse (exec (.edge 1) fullSampler) = some (.edge true 0x87 false false .overrun) := by decide
/-- S-0g: a position that is never stored. -/
theorem test_edge_out_of_range : faultOf (exec (.edge 0) (samplerAt 11 0x00)) = some .bitCountOutOfRange := by decide

/-! ## ENQ -/

/-- Q-2, event 1: the first byte wakes the consumer. -/
theorem test_enq_first : lastResponse (exec (.enq 0x01) (queueAt 0 0 [])) = some (.enq true true .none) := by decide
/-- Q-3, event 5: the fifth byte is stored and the queue reads as empty. -/
theorem test_enq_overrun :
    (after (exec (.enq 0x05) fullQueue)).map (fun t => (t.r, t.w, t.slots)) =
      some (0, 0, fourItems ++ [(4, 0x05)]) ∧
    lastResponse (exec (.enq 0x05) fullQueue) = some (.enq false false .overrun) := by decide

/-! ## DEQ -/

/-- Q-5, event 11: the read index wraps and only its slot is cleared. -/
theorem test_deq_wraps :
    (after (exec .deq (queueAt 4 1 [(0, 0xF6), (4, 0xE5)]))).map (fun t => (t.r, t.w, t.slots)) =
      some (0, 1, [(0, 0xF6)]) ∧
    lastResponse (exec .deq (queueAt 4 1 [(0, 0xF6), (4, 0xE5)])) = some (.deq (some 0xE5)) := by decide
/-- Q-10: a missing item inside the visible range. -/
theorem test_deq_q1 : faultOf (exec .deq (queueAt 0 1 [])) = some .invariantQ1 := by decide

/-! ## IS_EMPTY, IS_FULL -/

/-- Q-3, event 6: every slot holds a byte and the queue reads as empty. -/
theorem test_is_empty_after_overrun :
    lastResponse (exec .isEmpty (queueAt 0 0 (fourItems ++ [(4, 0x05)]))) = some (.isEmpty true) := by decide
/-- Q-4: `r = 4, w = 3` is full. -/
theorem test_is_full_wrapped : lastResponse (exec .isFull (queueAt 4 3 [])) = some (.isFull true) := by decide
/-- Q-4: `r = 2, w = 3` is not. -/
theorem test_is_full_one_item : lastResponse (exec .isFull (queueAt 2 3 [(2, 0x01)])) = some (.isFull false) := by decide

/-! ## RESET -/

/-- R-1. -/
theorem test_reset :
    after (exec .reset { samplerAt 7 0x38 with r := 2, w := 4, slots := [(2, 0x33), (3, 0x44)] }) =
      some { State.reset with responses := [(.harness, .reset)] } := by decide

/-! ## The step -/

/-- The CONSUMER's word is served in its turn and answered to it. -/
theorem test_step_serves_consumer :
    (after (step (racing [.consumer, .bus]))).map (fun t => (t.consumer, t.bus, t.schedule, t.responses)) =
      some ([], [0x001], [.bus], [(.consumer, .deq (some 0x01))]) := by decide
/-- A word its agent may not issue. -/
theorem test_step_wrong_agent :
    refusalOf (step { State.reset with bus := [0x200], schedule := [.bus] }) = some (.wrongPort .bus .deq) := by decide
/-- R138, R139, R11: the statuses are read from either side: by the BUS in both configurations, by the PRODUCER on the
EXTERNAL port alone, and never by the HARNESS. -/
theorem test_status_reads_from_either_side :
    [ProducerPort.sampler, .external].map (fun p =>
      [({ State.reset with cfg := ⟨5, p⟩, bus := [0x300], schedule := [.bus] } : State),
        { State.reset with cfg := ⟨5, p⟩, producer := [0x400], schedule := [.producer] },
        { State.reset with cfg := ⟨5, p⟩, harness := [0x400], schedule := [.harness] }].map
        fun s => (lastResponse (step s), refusalOf (step s))) =
    [[(some (.isEmpty true), none), (none, some (.wrongPort .producer .isFull)), (none, some (.wrongPort .harness .isFull))],
      [(some (.isEmpty true), none), (some (.isFull false), none), (none, some (.wrongPort .harness .isFull))]] := by
  decide
/-- 95, after the table of 2.1: the word 0x002 leaves `bit_count = 4, acc = 0x80`, and the run is marked. -/
theorem test_refused_word_marks_run :
    let ρ := (Run.start { samplerAt 4 0x80 with bus := [0x002], schedule := [.bus] }).advance
    (ρ.state.bitCount, ρ.state.acc, ρ.state.responses, ρ.refusalMark) =
      (4, 0x80, [], some (.word .edgePayload)) := by decide
/-- Every row of the opcode table runs as the first instruction after reset. -/
theorem test_fetch_word_runs :
    [0x000, 0x001, 0x11C, 0x200, 0x300, 0x400, 0x500].map
      (fun w => lastResponse (step (State.reset.withFetchWord 16 w))) =
    [some noFrame, some noFrame, some (.enq true true .none), some (.deq none), some (.isEmpty true),
      some (.isFull false), some .reset] := by decide

/-- R131: the numeric condition codes. -/
theorem test_cond_codes : (Cond.none.code, Cond.overrun.code) = (0, 1) := by decide

/-! ## Scripts (R65) -/

/-- P1's frame line: the edges of S-1. -/
theorem test_script_frame :
    (parseLine "FRAME 0x1C          ; EDGE 0,0,0,1,1,1,0,0,0,0,1".toList).map (fun l => l.map expand) =
      some (some ([0, 0, 0, 1, 1, 1, 0, 0, 0, 0, 1].map .edge)) := by decide
/-- The settings of a frame, and lower case. -/
theorem test_script_settings :
    parseLine "frame 0b01011010, p=0, s=0, st=1".toList = some (some (.frame 0x5A 0 0 1)) ∧
    parseLine "frame 90, st=1".toList = some (some (.frame 0x5A 1 1 1)) := by decide
/-- A small script, its words. -/
theorem test_script_words :
    (parseScript "RESET\nENQ 0x1C\n\nis_empty ; status\nDRAIN 2".toList).map assemble =
      some [0x500, 0x11C, 0x300, 0x200, 0x200] := by decide
/-- Lines that spell nothing. -/
theorem test_script_rejects :
    ["ENQ 256", "EDGE 2", "DEQ 1", "FRAME 0x1C, p=2", "ENQ 0x1", "NOP"].map (fun l => parseLine l.toList) =
      [none, none, none, none, none, none] := by decide

/-! ## States of the invariant -/

theorem reset_inv : State.reset.Inv := ⟨by decide, by decide, by decide, by decide, by decide, by decide, by decide⟩
theorem fullQueue_inv : fullQueue.Inv := ⟨by decide, by decide, by decide, by decide, by decide, by decide, by decide⟩
theorem fullSampler_inv : fullSampler.Inv :=
  ⟨by decide, by decide, by decide, by decide, by decide, by decide, by decide⟩
theorem emptyQueue_inv : (queueAt 4 4 []).Inv :=
  ⟨by decide, by decide, by decide, by decide, by decide, by decide, by decide⟩
theorem threeItems_inv : (queueAt 3 1 [(0, 0xF6), (3, 0xD4), (4, 0xE5)]).Inv :=
  ⟨by decide, by decide, by decide, by decide, by decide, by decide, by decide⟩
theorem stalePair_inv : (queueAt 0 0 (fourItems ++ [(4, 0x05)])).Inv :=
  ⟨by decide, by decide, by decide, by decide, by decide, by decide, by decide⟩
theorem smallFull_inv : ({ queueAt 0 1 [(0, 0xAA)] with cfg := ⟨2, .external⟩ } : State).Inv :=
  ⟨by decide, by decide, by decide, by decide, by decide, by decide, by decide⟩
theorem racing_inv (order : List Agent) : (racing order).Inv :=
  ⟨fullSampler_inv.capacity, fullSampler_inv.position, fullSampler_inv.readIndex, fullSampler_inv.writeIndex,
    fullSampler_inv.canonical, fullSampler_inv.slotSpace, fullSampler_inv.q1⟩
theorem lastEdge_inv : ({ samplerAt 10 0x87 with r := 4, w := 4 } : State).Inv :=
  ⟨by decide, by decide, by decide, by decide, by decide, by decide, by decide⟩

/-! ## Witnesses: each statement's hypotheses are met together, clause by clause -/

theorem witness_DecodeFollowsEventTable :
    (0x0FF#12).toNat / 256 = 0 ∧ (0x100#12).toNat / 256 = 1 ∧ (0x1FF#12).toNat / 256 = 1 ∧ (0x200#12).toNat / 256 = 2 ∧
      (0x300#12).toNat / 256 = 3 ∧ (0x400#12).toNat / 256 = 4 ∧ (0x5FF#12).toNat / 256 = 5 ∧
      6 ≤ (0x600#12).toNat / 256 ∧ 6 ≤ (0xFFF#12).toNat / 256 := by decide
theorem witness_EdgeStartDiscardsLevel : (Instr.edge 1).wf (samplerAt 0 0xFF).cfg ∧ (samplerAt 0 0xFF).bitCount = 0 := by
  decide
theorem witness_EdgeDataShiftsLevelIn :
    ((Instr.edge 1).wf (samplerAt 1 0).cfg ∧ 1 ≤ (samplerAt 1 0).bitCount.toNat ∧ (samplerAt 1 0).bitCount.toNat ≤ 8) ∧
    ((Instr.edge 0).wf (samplerAt 8 0).cfg ∧ 1 ≤ (samplerAt 8 0).bitCount.toNat ∧ (samplerAt 8 0).bitCount.toNat ≤ 8) ∧
    ((Instr.edge 0).wf (samplerAt 1 0).cfg ∧ (samplerAt 1 0).bitCount = 1) := by decide
theorem witness_EdgeParityAndStopIgnoreLevel :
    ((Instr.edge 1).wf (samplerAt 9 0x87).cfg ∧ (samplerAt 9 0x87).bitCount = 9) ∧
    ((Instr.edge 0).wf fullSampler.cfg ∧ fullSampler.bitCount = 10 ∧ fullSampler.w < fullSampler.cfg.n) := by decide
theorem witness_EdgeCompletesFrame :
    ((Instr.edge 0).wf fullSampler.cfg ∧ fullSampler.bitCount = 10 ∧ fullSampler.w < fullSampler.cfg.n) ∧
    ∃ t, exec (.edge 0) fullSampler = .next t := ⟨by decide, _, rfl⟩
theorem witness_EdgesCountModuloEleven :
    (∃ t, exec (.edge 1) (samplerAt 10 0) = .next t) ∧
    ((samplerAt 0 0).bitCount = 0 ∧ Instr.reset ∉ [Instr.edge 1, .deq, .edge 0] ∧
      ∃ t, execAll [.edge 1, .deq, .edge 0] (samplerAt 0 0) = .next t) := ⟨⟨_, rfl⟩, by decide, by decide, _, rfl⟩
theorem witness_SamplerNeverResynchronizes :
    (samplerAt 10 0).bitCount.toNat ≤ 10 ∧ Instr.reset ∉ [Instr.edge 0, .edge 1, .edge 1, .edge 1, .edge 1, .edge 1, .edge 1,
      .edge 1, .edge 1, .edge 1, .edge 1] ∧
    [Instr.edge 0, .edge 1, .edge 1, .edge 1, .edge 1, .edge 1, .edge 1, .edge 1, .edge 1, .edge 1, .edge 1].countP isEdge =
      11 * 1 ∧
    ∃ t, execAll [.edge 0, .edge 1, .edge 1, .edge 1, .edge 1, .edge 1, .edge 1, .edge 1, .edge 1, .edge 1, .edge 1]
      (samplerAt 10 0) = .next t := ⟨by decide, by decide, by decide, _, rfl⟩
theorem witness_EdgeFaultsPastLastPosition :
    ((Instr.edge 0).wf (samplerAt 11 0).cfg ∧ 10 < (samplerAt 11 0).bitCount.toNat) ∧
    ((Instr.edge 1).wf (samplerAt 15 0).cfg ∧ 10 < (samplerAt 15 0).bitCount.toNat) := by decide
theorem witness_FrameDeliversPackedByte :
    (Instr.edge 1).wf (samplerAt 0 0xFF).cfg ∧ (samplerAt 0 0xFF).bitCount = 0 ∧
      (samplerAt 0 0xFF).w < (samplerAt 0 0xFF).cfg.n := by decide
theorem witness_FramesDeliverBytesInOrder :
    State.reset.Inv ∧ State.reset.cfg.producerPort = .sampler ∧ State.reset.bitCount = 0 :=
  ⟨reset_inv, by decide, by decide⟩
theorem witness_FrameCorruptionIsUnobservable :
    (samplerAt 0 0).bitCount = 0 ∧ ([0, 1, 0, 1, 1, 0, 1, 0] : List Level).length = 8 := by decide
theorem witness_EnqueueStoresAndAdvances : (Instr.enq 0x55).wf fullQueue.cfg ∧ fullQueue.w < fullQueue.cfg.n := by decide
theorem witness_OverrunDiscardsVisibleItems :
    fullQueue.Inv ∧ (Instr.enq 0x05).wf fullQueue.cfg ∧ count fullQueue = fullQueue.cfg.n - 1 :=
  ⟨fullQueue_inv, by decide, by decide⟩
theorem witness_EdgeNeverBlocksOnFullQueue :
    fullSampler.Inv ∧ (Instr.edge 1).wf fullSampler.cfg ∧ fullSampler.bitCount = 10 ∧ fullFlag fullSampler = true :=
  ⟨fullSampler_inv, by decide, by decide, by decide⟩
theorem witness_EnqueueBelowCapacityIsLossless :
    ((queueAt 3 1 [(0, 0xF6), (3, 0xD4), (4, 0xE5)]).Inv ∧ count (queueAt 3 1 [(0, 0xF6), (3, 0xD4), (4, 0xE5)]) = 3 ∧
      (Instr.enq 0x55).wf (queueAt 3 1 []).cfg) ∧
    (({ samplerAt 10 0x87 with r := 4, w := 4 } : State).Inv ∧
      count ({ samplerAt 10 0x87 with r := 4, w := 4 } : State) ≤ 3 ∧ (Instr.edge 1).wf (samplerAt 10 0x87).cfg ∧
      (samplerAt 10 0x87).bitCount = 10) :=
  ⟨⟨threeItems_inv, by decide, by decide⟩, lastEdge_inv, by decide, by decide, by decide⟩
theorem witness_DequeueTakesOldest :
    (Instr.deq.wf (queueAt 4 4 []).cfg ∧ (queueAt 4 4 []).r = (queueAt 4 4 []).w) ∧
    (Instr.deq.wf fullQueue.cfg ∧ fullQueue.r ≠ fullQueue.w ∧ fullQueue.r < fullQueue.cfg.n ∧
      slotRead fullQueue.slots fullQueue.r = some 0x01) ∧
    (Instr.deq.wf (queueAt 0 1 []).cfg ∧ (queueAt 0 1 []).r ≠ (queueAt 0 1 []).w ∧
      (queueAt 0 1 []).r < (queueAt 0 1 []).cfg.n ∧ slotRead (queueAt 0 1 []).slots (queueAt 0 1 []).r = none) := by decide
theorem witness_AccessOutsideSlotSpaceFaults :
    ((Instr.enq 0).wf (queueAt 0 5 []).cfg ∧ (queueAt 0 5 []).cfg.n ≤ (queueAt 0 5 []).w) ∧
    ((Instr.edge 0).wf (samplerAt 10 0).cfg ∧ ({ samplerAt 10 0 with w := 5 } : State).bitCount = 10 ∧
      (samplerAt 10 0).cfg.n ≤ ({ samplerAt 10 0 with w := 5 } : State).w) ∧
    (Instr.deq.wf (queueAt 5 0 []).cfg ∧ (queueAt 5 0 []).r ≠ (queueAt 5 0 []).w ∧
      (queueAt 5 0 []).cfg.n ≤ (queueAt 5 0 []).r) := by decide
theorem witness_IsEmptyComparesIndices : Instr.isEmpty.wf (queueAt 0 1 [(0, 0x01)]).cfg := by decide
theorem witness_IsFullPredictsOverrun :
    Instr.isFull.wf fullQueue.cfg ∧ (fullQueue.Inv ∧ (Instr.enq 0x05).wf fullQueue.cfg) ∧
    (({ queueAt 0 1 [(0, 0xAA)] with cfg := ⟨2, .external⟩ } : State).Inv ∧
      ({ queueAt 0 1 [(0, 0xAA)] with cfg := ⟨2, .external⟩ } : State).cfg.n = 2) :=
  ⟨by decide, ⟨fullQueue_inv, by decide⟩, smallFull_inv, by decide⟩
theorem witness_ConsumerAloneDrainsVisible : fullQueue.Inv ∧ count fullQueue = 4 := ⟨fullQueue_inv, by decide⟩
theorem witness_StatusesAreOccupancy : fullQueue.Inv ∧ (queueAt 4 4 []).Inv := ⟨fullQueue_inv, emptyQueue_inv⟩
theorem witness_WakeMarksEmptyToNonEmpty :
    ((queueAt 4 4 []).Inv ∧ (Instr.enq 0x01).wf (queueAt 4 4 []).cfg) ∧
    (({ samplerAt 10 0x87 with r := 4, w := 4 } : State).Inv ∧ (Instr.edge 1).wf (samplerAt 10 0x87).cfg ∧
      (samplerAt 10 0x87).bitCount = 10) := ⟨⟨emptyQueue_inv, by decide⟩, lastEdge_inv, by decide, by decide⟩
theorem witness_IndicesAdvanceByOne :
    (4 < 5) ∧ ∃ t, exec .deq (queueAt 4 1 [(0, 0xF6), (4, 0xE5)]) = .next t ∧ Instr.deq ≠ .reset :=
  ⟨by decide, _, rfl, by decide⟩
theorem witness_InvariantQ1IsPreserved :
    (fullQueue.r < fullQueue.cfg.n ∧ fullQueue.w < fullQueue.cfg.n ∧
      (∀ k < count fullQueue, slotRead fullQueue.slots ((fullQueue.r + k) % fullQueue.cfg.n) ≠ none) ∧
      ∃ t, exec (.enq 0x05) fullQueue = .next t) ∧
    ∃ t, exec .reset fullQueue = .next t := ⟨⟨by decide, by decide, by decide, _, rfl⟩, _, rfl⟩
theorem witness_BlockRefinesAbstractQueue : fullQueue.Inv ∧ Instr.deq.wf fullQueue.cfg := ⟨fullQueue_inv, by decide⟩
theorem witness_FifoBelowCapacity :
    (queueAt 4 4 []).Inv ∧ (queueAt 4 4 []).cfg.producerPort = .external ∧ (queueAt 4 4 []).r = (queueAt 4 4 []).w ∧
      ([0x01, 0x02, 0x03, 0x04] : List Byte).length = (queueAt 4 4 []).cfg.n - 1 :=
  ⟨emptyQueue_inv, by decide, by decide, by decide⟩
theorem witness_NthEnqueueLosesAll :
    (queueAt 0 0 (fourItems ++ [(4, 0x05)])).Inv ∧ (queueAt 0 0 []).cfg.producerPort = .external ∧
      (queueAt 0 0 []).r = (queueAt 0 0 []).w ∧
      ([0x01, 0x02, 0x03, 0x04] : List Byte).length = (queueAt 0 0 []).cfg.n - 1 :=
  ⟨stalePair_inv, by decide, by decide, by decide⟩
theorem witness_DeliveryIsFifoSubsequence :
    (queueAt 4 4 []).Inv ∧ (queueAt 4 4 []).r = (queueAt 4 4 []).w ∧ Instr.reset ∉ [Instr.enq 0x11, .deq] ∧
      ∃ t, execAll [.enq 0x11, .deq] (queueAt 4 4 []) = .next t ∧
        ∀ p ∈ newResponses (queueAt 4 4 []) t, p.2.cond ≠ .overrun :=
  ⟨emptyQueue_inv, by decide, by decide, _, rfl, by decide⟩
theorem witness_ResetClearsTheBlock : Instr.reset.wf fullSampler.cfg := by decide
theorem witness_ResetValues : (∃ t, exec .reset fullSampler = .next t) ∧ Config.wf ⟨2, .external⟩ := ⟨⟨_, rfl⟩, by decide⟩
theorem witness_UnadmittedEventsAreRefused :
    (2 ≤ fullQueue.cfg.n ∧ fullQueue.cfg.producerPort = .external) ∧
    (2 ≤ fullSampler.cfg.n ∧ fullSampler.cfg.producerPort = .sampler) ∧
    ({ State.reset with cfg := ⟨1, .sampler⟩ } : State).cfg.n < 2 := by decide
theorem witness_RefusedWordOnlyMarksTheRun :
    let ρ := Run.start { samplerAt 4 0x80 with bus := [0x002], schedule := [.bus] }
    ρ.fault = none ∧ ρ.state.schedule = [.bus] ∧ pendingAt .bus ρ.state = [0x002] ∧
      decode ρ.state.cfg 0x002 = .error .edgePayload := by decide
theorem witness_RefusalMarkIsKept :
    ({ Run.start State.reset with refusalMark := some .capacityBelowTwo } : Run).refusalMark = some .capacityBelowTwo := rfl
theorem witness_WrongAgentIsRefused :
    let s : State := { State.reset with bus := [0x200], schedule := [.bus] }
    s.schedule = [.bus] ∧ pendingAt .bus s = [0x200] ∧ decode s.cfg 0x200 = .ok .deq ∧ mayIssue s.cfg .bus .deq = false := by decide
theorem witness_StepRunsDecodedEvent :
    (racing [.consumer, .bus]).schedule = [.consumer, .bus] ∧ pendingAt .consumer (racing [.consumer, .bus]) = [0x200] ∧
      decode (racing [.consumer, .bus]).cfg 0x200 = .ok .deq ∧ mayIssue (racing [.consumer, .bus]).cfg .consumer .deq = true := by decide
theorem witness_BlockHoldsStateWithoutEvents :
    State.reset.schedule = [] ∧
    (({ State.reset with schedule := [.producer, .bus] } : State).schedule = [.producer, .bus] ∧
      pendingAt .producer { State.reset with schedule := [.producer, .bus] } = []) := by decide
theorem witness_EveryEventAnswersItsIssuer :
    (racing [.bus]).Inv ∧ nextEvent (racing [.bus]) = some (.bus, 0x001) ∧
      decode (racing [.bus]).cfg 0x001 = .ok (.edge 1) ∧ mayIssue (racing [.bus]).cfg .bus (.edge 1) = true :=
  ⟨racing_inv _, by decide, by decide, by decide⟩
theorem witness_ProgramOrderPerPort : ∃ t, stepAll 2 (racing [.bus, .consumer]) = .next t := ⟨_, rfl⟩
theorem witness_RaceAtCapacityBoundary :
    (∀ order, (racing order).Inv) ∧ ∀ order ∈ [[Agent.consumer, .bus], [.bus, .consumer]],
      (racing order).cfg.producerPort = .sampler ∧ (racing order).bitCount = 10 ∧ fullFlag (racing order) = true ∧
      (racing order).bus = [encode (.edge 1)] ∧ (racing order).consumer = [encode .deq] ∧
      (racing order).schedule = order :=
  ⟨racing_inv, by decide⟩
theorem witness_OwnershipBySide :
    (nextEvent (racing [.bus]) = some (.bus, 0x001) ∧ ∃ t, step (racing [.bus]) = .next t) ∧
    (nextEvent (racing [.consumer]) = some (.consumer, 0x200) ∧ ∃ t, step (racing [.consumer]) = .next t) ∧
    (nextEvent { fullQueue with producer := [0x105], schedule := [.producer] } = some (.producer, 0x105) ∧
      ∃ t, step { fullQueue with producer := [0x105], schedule := [.producer] } = .next t) :=
  ⟨⟨by decide, _, rfl⟩, ⟨by decide, _, rfl⟩, by decide, _, rfl⟩
theorem witness_ConsumerCannotSeeSampler : ∃ t, exec .deq fullSampler = .next t := ⟨_, rfl⟩
theorem witness_StaleSlotsAreUnobservable :
    (queueAt 0 0 (fourItems ++ [(4, 0x05)])).Inv ∧ (queueAt 4 4 []).Inv ∧
      visible (queueAt 0 0 (fourItems ++ [(4, 0x05)])) = visible (queueAt 4 4 []) ∧
      ∃ t, execAll [.enq 0x06, .deq] (queueAt 0 0 (fourItems ++ [(4, 0x05)])) = .next t :=
  ⟨stalePair_inv, emptyQueue_inv, by decide, _, rfl⟩
theorem witness_StoringEventsFrame :
    (∃ t, exec (.enq 0x05) fullQueue = .next t) ∧ (∃ t, exec (.edge 1) fullSampler = .next t) ∧ fullSampler.bitCount = 10 :=
  ⟨⟨_, rfl⟩, ⟨_, rfl⟩, by decide⟩
theorem witness_OtherEventsFrame :
    ((∃ t, exec (.edge 1) (samplerAt 9 0) = .next t) ∧ (samplerAt 9 0).bitCount ≠ 10) ∧
    (∃ t, exec .isFull fullQueue = .next t) ∧ ((∃ t, exec .deq fullQueue = .next t) ∧ fullQueue.r ≠ fullQueue.w) ∧
    (∃ t, exec .deq (queueAt 4 4 []) = .next t) ∧ ∃ t, exec .reset fullQueue = .next t :=
  ⟨⟨⟨_, rfl⟩, by decide⟩, ⟨_, rfl⟩, ⟨⟨_, rfl⟩, by decide⟩, ⟨_, rfl⟩, _, rfl⟩
theorem witness_ConfigurationIsFixed : ∃ t, stepAll 2 (racing [.bus, .consumer]) = .next t := ⟨_, rfl⟩
theorem witness_InvariantHoldsAtPowerOn : Config.wf ⟨2, .external⟩ := by decide
theorem witness_EveryStepKeepsInvariant : (racing [.bus]).Inv ∧ ∃ t, step (racing [.bus]) = .next t :=
  ⟨racing_inv _, _, rfl⟩
theorem witness_NoRunFaults : Config.wf ⟨5, .sampler⟩ := by decide
theorem witness_StepNeverFaults : (racing [.bus]).Inv := racing_inv _
theorem witness_EndlessRunsNeverFault : Config.wf ⟨2, .external⟩ := by decide

/-- An endless environment: before every step the CONSUMER issues one `DEQ` and gets the turn. -/
def polling : Environment := fun _ => ⟨[(.consumer, 0x200)], [.consumer]⟩
/-- A block with nothing pending and nothing to take. -/
def Idle (ρ : Run) : Prop :=
  ρ.fault = none ∧ 2 ≤ ρ.state.cfg.n ∧ ρ.state.r = ρ.state.w ∧ ρ.state.schedule = [] ∧ ∀ a, pendingAt a ρ.state = []
theorem polling_facing_pending {ρ : Run} (h : Idle ρ) (a : Agent) :
    pendingAt a (offerTo ⟨[(.consumer, 0x200)], [.consumer]⟩ ρ.state) = if a = .consumer then [0x200] else [] := by
  rw [pendingAt_offerTo, h.2.2.2.2 a]
  cases a <;> rfl
theorem polling_advance {ρ : Run} (h : Idle ρ) : Idle (ρ.offered ⟨[(.consumer, 0x200)], [.consumer]⟩).advance := by
  have hp := polling_facing_pending h
  obtain ⟨hf, hn, hr, hs, -⟩ := h
  have hstep : step (offerTo ⟨[(.consumer, 0x200)], [.consumer]⟩ ρ.state) =
      .next (respond (.deq none) (takeEvent .consumer (offerTo ⟨[(.consumer, 0x200)], [.consumer]⟩ ρ.state))) := by
    rw [step_event (i := .deq) (nextEvent_of (by simp [hs]; rfl) (hp .consumer)) rfl rfl]
    exact execDeq_empty ((wf_iff _ _).mpr ⟨by simpa using hn, rfl⟩) (by simpa using hr)
  simp only [Run.offered, Run.advance, hf, hstep]
  refine ⟨rfl, by simpa using hn, by simpa using hr, by simp [hs], fun a => ?_⟩
  have := hp a
  cases a <;> simp_all [respond, pendingAt, takeEvent, consumeEvent, setPending, passTurn]
theorem polling_idle (k : Nat) : Idle (polling.run (Run.start State.reset) k) := by
  induction k with
  | zero => exact ⟨rfl, by decide, rfl, rfl, fun a => by cases a <;> rfl⟩
  | succ k ih => exact polling_advance ih
theorem polling_fair : polling.Fair (Run.start State.reset) := by
  intro a k h
  have hp := polling_facing_pending (polling_idle k) a
  refine ⟨k, Nat.le_refl k, ?_⟩
  by_cases ha : a = .consumer
  · subst ha; simp [Environment.facing, polling, (polling_idle k).2.2.2.1]
  · exact absurd (hp.trans (if_neg ha)) h
/-- A fair run in which infinitely many events take effect. -/
theorem witness_FairRunsServeEveryEvent :
    (Run.start State.reset).fault = none ∧ (Run.start State.reset).state.Inv ∧ polling.Fair (Run.start State.reset) ∧
      ∀ k, (pendingAt .consumer (polling.facing (Run.start State.reset) k))[0]? = some 0x200 ∧
        decode (polling.facing (Run.start State.reset) k).cfg 0x200 = .ok .deq ∧
        mayIssue (polling.facing (Run.start State.reset) k).cfg .consumer .deq = true :=
  ⟨rfl, reset_inv, polling_fair, fun k =>
    ⟨by rw [show pendingAt .consumer (polling.facing (Run.start State.reset) k) = [0x200] from
        polling_facing_pending (polling_idle k) .consumer]; rfl, rfl, rfl⟩⟩
theorem witness_FrameScriptDeliversItsByte :
    (Instr.edge 0).wf (samplerAt 0 0).cfg ∧ (samplerAt 0 0).bitCount = 0 ∧ (samplerAt 0 0).w < (samplerAt 0 0).cfg.n := by
  decide

end Sys2Proof.Tests
end

section
/-! Settled obligations of the scope (spec/00_scope.md): what a step runs. -/

namespace Sys2Proof.Machine

/-- Settles O38: the turn and the word make the event the next one, `step_event` runs it, and the laws of
`takeEvent` say field by field what taking the event changes. -/
theorem stepRunsDecodedEvent : Obligations.StepRunsDecodedEvent := by
  intro s a rest e es i hsched hpend hdec hmay
  have hnext : nextEvent s = some (a, e) := nextEvent_of hsched hpend
  have hrest : (takeEvent a s).schedule = rest := by rw [takeEvent_schedule, hsched, List.tail_cons]
  have hes : pendingAt a (takeEvent a s) = es := by rw [pendingAt_takeEvent, hpend, List.tail_cons]
  exact ⟨step_event hnext hdec hmay, hrest, hes, fun _ hb => pendingAt_takeEvent_ne s hb,
    takeEvent_issuer s a, takeEvent_cfg s a, takeEvent_bitCount s a, takeEvent_acc s a,
    takeEvent_slots s a, takeEvent_r s a, takeEvent_w s a, takeEvent_responses s a⟩

end Sys2Proof.Machine
end

section
/-! The state the queue is left in (spec/10_state.md R26 to R29, spec/41_queue.md R100, R101, R106): what an enqueue and
a dequeue do to the occupancy, to the visible items and to invariant Q1, and that every event keeps the invariant. -/

namespace Sys2Proof.Machine

variable {s t : State} {i : Instr} {x v : Byte}

/-! What the occupancy and the visible items do not depend on -/

@[simp] theorem count_respond (q : Response) (s : State) : count (respond q s) = count s := rfl
@[simp] theorem count_setSampler (b : BitCount) (a : Byte) (s : State) : count (setSampler b a s) = count s := rfl
@[simp] theorem visible_respond (q : Response) (s : State) : visible (respond q s) = visible s := rfl
@[simp] theorem visible_setSampler (b : BitCount) (a : Byte) (s : State) : visible (setSampler b a s) = visible s := rfl

theorem visible_of_count_eq_zero (h : count s = 0) : visible s = [] := by rw [visible, h, itemsFrom_zero]

/-- The invariant speaks of the configuration, the position and the queue alone. -/
theorem State.Inv.congr (hs : s.Inv) (hcfg : t.cfg = s.cfg) (hbit : t.bitCount = s.bitCount)
    (hslots : t.slots = s.slots) (hr : t.r = s.r) (hw : t.w = s.w) : t.Inv := by
  have hcount : count t = count s := by simp only [count, hcfg, hr, hw]
  constructor
  case capacity => rw [hcfg]; exact hs.capacity
  case position => rw [hbit]; exact hs.position
  case readIndex => rw [hr, hcfg]; exact hs.readIndex
  case writeIndex => rw [hw, hcfg]; exact hs.writeIndex
  case canonical => rw [hslots]; exact hs.canonical
  case slotSpace => rw [hslots, hcfg]; exact hs.slotSpace
  case q1 => rw [hcount, hslots, hr, hcfg]; exact hs.q1

theorem State.Inv.respond (hs : s.Inv) (q : Response) : (respond q s).Inv := hs.congr rfl rfl rfl rfl rfl

theorem State.Inv.passTurn (hs : s.Inv) : (passTurn s).Inv := hs.congr rfl rfl rfl rfl rfl

theorem State.Inv.takeEvent (hs : s.Inv) (a : Agent) : (takeEvent a s).Inv :=
  hs.congr (takeEvent_cfg s a) (takeEvent_bitCount s a) (takeEvent_slots s a) (takeEvent_r s a) (takeEvent_w s a)

theorem State.Inv.setSampler (hs : s.Inv) {b : BitCount} (hb : b.toNat ≤ 10) (a : Byte) : (setSampler b a s).Inv :=
  { hs with position := hb }

/-- A cleared block satisfies the invariant: no slot is visible. -/
theorem inv_of_cleared (hn : 2 ≤ s.cfg.n) (hb : s.bitCount = 0) (hm : s.slots = []) (hr : s.r = 0) (hw : s.w = 0) :
    s.Inv := by
  have hcount : count s = 0 := (count_eq_zero (by omega) (by omega)).mpr (by rw [hr, hw])
  constructor
  case capacity => exact hn
  case position => simp [hb]
  case readIndex => omega
  case writeIndex => omega
  case canonical => rw [hm]; exact wf_nil
  case slotSpace => simp [hm]
  case q1 => simp [hcount]

/-- A cleared queue is empty and, with at least two slots, not full. -/
theorem statuses_of_cleared (hn : 2 ≤ s.cfg.n) (hr : s.r = 0) (hw : s.w = 0) :
    emptyFlag s = true ∧ fullFlag s = false := by
  have hinc : incN s.cfg.n 0 = 1 := if_pos (by omega)
  simp [emptyFlag, fullFlag, hr, hw, hinc]

theorem length_visible (hs : s.Inv) : (visible s).length = count s := length_itemsFrom hs.readIndex hs.q1

theorem visible_eq_nil_iff (hs : s.Inv) : visible s = [] ↔ s.r = s.w := by
  rw [← count_eq_zero hs.readIndex hs.writeIndex, ← length_visible hs, List.length_eq_zero_iff]

/-! The enqueue -/

/-- The occupancy after `w` advances: one more, or none when `w` catches `r`. -/
theorem count_setTail_incN (hr : s.r < s.cfg.n) (hw : s.w < s.cfg.n) (m : Memory) :
    count (setTail m (incN s.cfg.n s.w) s) = if count s = s.cfg.n - 1 then 0 else count s + 1 := by
  rw [count_split (s := setTail m (incN s.cfg.n s.w) s) hr (incN_lt hw), count_split hr hw]
  simp only [setTail_cfg, setTail_r, setTail_w, incN]
  repeat' split
  all_goals omega

/-- A byte written at `w` leaves every visible slot as it was. -/
theorem slotRead_slotWrite_visible {k : Nat} (hr : s.r < s.cfg.n) (hw : s.w < s.cfg.n) (hk : k < count s) :
    slotRead (slotWrite s.slots s.w x) ((s.r + k) % s.cfg.n) = slotRead s.slots ((s.r + k) % s.cfg.n) :=
  slotRead_slotWrite_ne _ _ (visible_slot_ne hr hw hk)

/-- Q1 after an enqueue: the new last item is the byte written, and an enqueue that catches `r` leaves none visible. -/
theorem State.Inv.enqueued (hs : s.Inv) (x : Byte) :
    (setTail (slotWrite s.slots s.w x) (incN s.cfg.n s.w) s).Inv := by
  have hr := hs.readIndex
  have hw := hs.writeIndex
  constructor
  case capacity => exact hs.capacity
  case position => exact hs.position
  case readIndex => exact hr
  case writeIndex => exact incN_lt hw
  case canonical => exact wf_slotWrite _ _ hs.canonical
  case slotSpace =>
    intro c hc
    rcases mem_slotWrite hc with rfl | hc
    · exact hw
    · exact hs.slotSpace c hc
  case q1 =>
    intro k hk
    rw [count_setTail_incN hr hw] at hk
    simp only [setTail_slots, setTail_r, setTail_cfg]
    by_cases hold : k < count s
    · rw [slotRead_slotWrite_visible hr hw hold]
      exact hs.q1 k hold
    · have hlast : k = count s := by split at hk <;> omega
      simp [hlast, head_add_count hr hw]

/-- The visible items after an enqueue: the byte comes last, and an enqueue that catches `r` leaves none. -/
theorem visible_enqueued (hr : s.r < s.cfg.n) (hw : s.w < s.cfg.n) (x : Byte) :
    visible (setTail (slotWrite s.slots s.w x) (incN s.cfg.n s.w) s) =
      if count s = s.cfg.n - 1 then [] else visible s ++ [x] := by
  have hcount := count_setTail_incN hr hw (slotWrite s.slots s.w x)
  by_cases hfull : count s = s.cfg.n - 1
  · rw [if_pos hfull] at hcount ⊢
    exact visible_of_count_eq_zero hcount
  · rw [if_neg hfull] at hcount ⊢
    simp only [visible, hcount, setTail_cfg, setTail_slots, setTail_r]
    rw [itemsFrom_snoc _ _ hr, head_add_count hr hw, slotRead_slotWrite_self,
      itemsFrom_congr hr fun j hj => slotRead_slotWrite_visible hr hw hj, Option.toList_some]

/-- The byte is accepted exactly when the queue was not full. -/
theorem acceptedFlag_eq (hs : s.Inv) :
    acceptedFlag (incN s.cfg.n s.w) s.r = decide (count s ≠ s.cfg.n - 1) := by
  rw [acceptedFlag, Bool.eq_iff_iff, bne_iff_ne, decide_eq_true_iff, ne_eq, ne_eq,
    count_eq_last hs.readIndex hs.writeIndex hs.capacity]

theorem emptyFlag_eq_true_iff (hs : s.Inv) : emptyFlag s = true ↔ count s = 0 := by
  rw [emptyFlag, beq_iff_eq, count_eq_zero hs.readIndex hs.writeIndex]

theorem fullFlag_eq_true_iff (hs : s.Inv) : fullFlag s = true ↔ count s = s.cfg.n - 1 := by
  rw [fullFlag, beq_iff_eq, count_eq_last hs.readIndex hs.writeIndex hs.capacity]

/-! The dequeue -/

/-- The occupancy before `r` advances over an item is one more than after. -/
theorem count_eq_count_setHead_incN_succ (hr : s.r < s.cfg.n) (hw : s.w < s.cfg.n) (hne : s.r ≠ s.w) (m : Memory) :
    count s = count (setHead m (incN s.cfg.n s.r) s) + 1 := by
  rw [count_split (s := setHead m (incN s.cfg.n s.r) s) (incN_lt hr) hw, count_split hr hw]
  simp only [setHead_cfg, setHead_r, setHead_w, incN]
  repeat' split
  all_goals omega

/-- Clearing the read slot leaves the items behind it as they were. -/
theorem slotRead_slotClear_behind {k : Nat} (hr : s.r < s.cfg.n) (hk : k + 1 < s.cfg.n) :
    slotRead (slotClear s.slots s.r) ((incN s.cfg.n s.r + k) % s.cfg.n) =
      slotRead s.slots ((incN s.cfg.n s.r + k) % s.cfg.n) := by
  refine slotRead_slotClear_ne _ ?_
  rw [incN_add_mod k hr, add_mod_split hr hk]
  split <;> omega

/-- The read slot of a queue that does not read as empty holds a byte. -/
theorem exists_head (hs : s.Inv) (hne : s.r ≠ s.w) : ∃ v, slotRead s.slots s.r = some v := by
  have hpos : 0 < count s :=
    Nat.pos_of_ne_zero fun h => hne ((count_eq_zero hs.readIndex hs.writeIndex).mp h)
  have hhead := hs.q1 0 hpos
  rw [Nat.add_zero, Nat.mod_eq_of_lt hs.readIndex] at hhead
  exact Option.ne_none_iff_exists'.mp hhead

/-- Q1 after a dequeue: the items behind the one taken stay. -/
theorem State.Inv.dequeued (hs : s.Inv) (hne : s.r ≠ s.w) :
    (setHead (slotClear s.slots s.r) (incN s.cfg.n s.r) s).Inv := by
  have hr := hs.readIndex
  constructor
  case capacity => exact hs.capacity
  case position => exact hs.position
  case readIndex => exact incN_lt hr
  case writeIndex => exact hs.writeIndex
  case canonical => exact wf_slotClear _ hs.canonical
  case slotSpace => exact fun c hc => hs.slotSpace c (mem_slotClear hc)
  case q1 =>
    intro k hk
    have hcount := count_eq_count_setHead_incN_succ hr hs.writeIndex hne (slotClear s.slots s.r)
    have hlt := count_lt hr
    simp only [setHead_slots, setHead_r, setHead_cfg]
    rw [slotRead_slotClear_behind hr (by omega), incN_add_mod k hr]
    exact hs.q1 (k + 1) (by omega)

/-- The visible items before a dequeue: the one taken, then those after it. -/
theorem visible_eq_cons_dequeued (hr : s.r < s.cfg.n) (hw : s.w < s.cfg.n) (hne : s.r ≠ s.w)
    (hv : slotRead s.slots s.r = some v) :
    visible s = v :: visible (setHead (slotClear s.slots s.r) (incN s.cfg.n s.r) s) := by
  have hcount := count_eq_count_setHead_incN_succ hr hw hne (slotClear s.slots s.r)
  have hlt := count_lt hr
  simp only [visible, setHead_cfg, setHead_slots, setHead_r]
  rw [hcount, itemsFrom_succ, hv, itemsFrom_congr (incN_lt hr) fun j hj => slotRead_slotClear_behind hr (by omega)]
  rfl

/-! The events -/

/-- An event that answers a next state is well formed. -/
theorem wf_of_exec_next (h : exec i s = .next t) : i.wf s.cfg := by
  cases i with
  | edge d => exact (execEdge_next h).1
  | enq x => exact (execEnq_next h).1
  | deq => exact (execDeq_next h).1
  | isEmpty => exact (execIsEmpty_next h).1
  | isFull => exact (execIsFull_next h).1
  | reset => exact (execReset_next h).1

/-- No event changes the configuration or the agent that is answered. -/
theorem cfg_issuer_of_exec_next (h : exec i s = .next t) : t.cfg = s.cfg ∧ t.issuer = s.issuer := by
  cases i with
  | edge d => obtain ⟨-, ⟨-, rfl⟩ | ⟨-, -, rfl⟩⟩ := execEdge_next h <;> exact ⟨rfl, rfl⟩
  | enq x => obtain ⟨-, -, rfl⟩ := execEnq_next h; exact ⟨rfl, rfl⟩
  | deq => obtain ⟨-, ⟨-, rfl⟩ | ⟨-, -, v, -, rfl⟩⟩ := execDeq_next h <;> exact ⟨rfl, rfl⟩
  | isEmpty => obtain ⟨-, rfl⟩ := execIsEmpty_next h; exact ⟨rfl, rfl⟩
  | isFull => obtain ⟨-, rfl⟩ := execIsFull_next h; exact ⟨rfl, rfl⟩
  | reset => obtain ⟨-, rfl⟩ := execReset_next h; exact ⟨rfl, rfl⟩

/-- The position after an edge within a frame, without the wrap of four bits. -/
theorem toNat_bitCount_succ (hb : s.bitCount.toNat < 10) : (s.bitCount + 1).toNat = s.bitCount.toNat + 1 := by
  bv_omega

/-- Every event keeps the invariant. -/
theorem State.Inv.exec_next (hs : s.Inv) (h : exec i s = .next t) : t.Inv := by
  cases i with
  | edge d =>
    obtain ⟨-, ⟨hb, rfl⟩ | ⟨-, -, rfl⟩⟩ := execEdge_next h
    · exact (hs.setSampler (by rw [toNat_bitCount_succ hb]; omega) _).respond _
    · exact ((hs.enqueued s.acc).setSampler (by decide) 0).respond _
  | enq x =>
    obtain ⟨-, -, rfl⟩ := execEnq_next h
    exact (hs.enqueued x).respond _
  | deq =>
    obtain ⟨-, ⟨-, rfl⟩ | ⟨hne, -, v, -, rfl⟩⟩ := execDeq_next h
    · exact hs.respond _
    · exact (hs.dequeued hne).respond _
  | isEmpty => obtain ⟨-, rfl⟩ := execIsEmpty_next h; exact hs.respond _
  | isFull => obtain ⟨-, rfl⟩ := execIsFull_next h; exact hs.respond _
  | reset =>
    obtain ⟨-, rfl⟩ := execReset_next h
    exact (inv_of_cleared (s := resetBlock s) hs.capacity rfl rfl rfl rfl).respond _

end Sys2Proof.Machine
end

section
/-! The block as an abstract queue behind the sampler (spec/41_queue.md R107): each event, and each list of events, does
to the abstraction what the abstract block does and returns its responses. -/

namespace Sys2Proof.Machine

variable {s t : State} {i : Instr} {x : Byte}

/-! One event -/

/-- The abstract enqueue is the enqueue, read through the visible items. -/
theorem absEnqueue_visible (hs : s.Inv) (x : Byte) :
    absEnqueue s.cfg.n (visible s) x =
      (visible (setTail (slotWrite s.slots s.w x) (incN s.cfg.n s.w) s), acceptedFlag (incN s.cfg.n s.w) s.r,
        wakeFlag (emptyFlag s) (acceptedFlag (incN s.cfg.n s.w) s.r)) := by
  have hlt := count_lt hs.readIndex
  have hempty : emptyFlag s = (count s == 0) := Bool.eq_iff_iff.mpr (by rw [emptyFlag_eq_true_iff hs, beq_iff_eq])
  rw [absEnqueue, length_visible hs, visible_enqueued hs.readIndex hs.writeIndex, acceptedFlag_eq hs, hempty]
  by_cases hfull : count s = s.cfg.n - 1
  · simp [hfull, wakeFlag]
  · have hroom : count s < s.cfg.n - 1 := by omega
    simp [hfull, hroom, wakeFlag]

/-- What it means that an event does to `s` what the abstract event does to its abstraction. -/
def Refines (i : Instr) (s : State) : Prop :=
  ∃ t, exec i s = .next t ∧ abstractOf t = (absExec i (abstractOf s)).1 ∧
    t.responses = s.responses ++ [(s.issuer, (absExec i (abstractOf s)).2)]

/-- The abstract edge that completes no frame counts, and shifts in the DATA phase. -/
theorem absExec_edge_midFrame {d : Level} {b : AbsBlock} (hb : b.position ≠ 10) :
    absExec (.edge d) b =
      ({ b with
          position := b.position + 1
          acc := if 1 ≤ b.position ∧ b.position ≤ 8 then shiftIn d b.acc else b.acc }, noFrame) :=
  if_neg hb

theorem refines_edge {d : Level} (hs : s.Inv) (hwf : (Instr.edge d).wf s.cfg) : Refines (.edge d) s := by
  by_cases hb : s.bitCount.toNat = 10
  · refine ⟨_, execEdge_frameDone hwf hb hs.writeIndex, ?_, ?_⟩ <;>
      simp [absExec, abstractOf, frameDone, hb, absEnqueue_visible hs]
  · have hlt : s.bitCount.toNat < 10 := Nat.lt_of_le_of_ne hs.position hb
    refine ⟨_, execEdge_midFrame hwf hlt, ?_, ?_⟩ <;> rw [absExec_edge_midFrame (b := abstractOf s) hb]
    · rw [show (abstractOf s).position = s.bitCount.toNat from rfl, ← toNat_bitCount_succ hlt]
      rfl
    · rfl

theorem refines_enq (hs : s.Inv) (hwf : (Instr.enq x).wf s.cfg) : Refines (.enq x) s := by
  refine ⟨_, execEnq_eq hwf hs.writeIndex, ?_, ?_⟩ <;>
    simp [absExec, abstractOf, enqDone, absEnqueue_visible hs]

theorem refines_deq (hs : s.Inv) (hwf : Instr.deq.wf s.cfg) : Refines .deq s := by
  by_cases hempty : s.r = s.w
  · have hnil := (visible_eq_nil_iff hs).mpr hempty
    refine ⟨_, execDeq_empty hwf hempty, ?_, ?_⟩ <;> simp [absExec, abstractOf, absDequeue, hnil]
  · obtain ⟨v, hv⟩ := exists_head hs hempty
    have hcons := visible_eq_cons_dequeued hs.readIndex hs.writeIndex hempty hv
    refine ⟨_, execDeq_item hwf hempty hs.readIndex hv, ?_, ?_⟩ <;>
      simp [absExec, abstractOf, absDequeue, hcons, deqDone]

theorem refines_isEmpty (hs : s.Inv) (hwf : Instr.isEmpty.wf s.cfg) : Refines .isEmpty s := by
  have hempty : emptyFlag s = ((visible s).length == 0) :=
    Bool.eq_iff_iff.mpr (by rw [emptyFlag_eq_true_iff hs, length_visible hs, beq_iff_eq])
  exact ⟨_, execIsEmpty_eq hwf, rfl, by simp only [respond_responses, hempty]; rfl⟩

theorem refines_isFull (hs : s.Inv) (hwf : Instr.isFull.wf s.cfg) : Refines .isFull s := by
  have hfull : fullFlag s = ((visible s).length == s.cfg.n - 1) :=
    Bool.eq_iff_iff.mpr (by rw [fullFlag_eq_true_iff hs, length_visible hs, beq_iff_eq])
  exact ⟨_, execIsFull_eq hwf, rfl, by simp only [respond_responses, hfull]; rfl⟩

theorem refines_reset (hs : s.Inv) (hwf : Instr.reset.wf s.cfg) : Refines .reset s := by
  have hpos : 0 < s.cfg.n := Nat.lt_of_lt_of_le Nat.two_pos hs.capacity
  have hcount : count (resetBlock s) = 0 := (count_eq_zero (s := resetBlock s) hpos hpos).mpr rfl
  refine ⟨_, execReset_eq hwf, ?_, rfl⟩
  simp [absExec, abstractOf, visible_of_count_eq_zero hcount]

/-- From every state of the invariant an admitted event completes and does what the abstract event does. -/
theorem refines_of_wf (hs : s.Inv) (hwf : i.wf s.cfg) : Refines i s := by
  cases i with
  | edge d => exact refines_edge hs hwf
  | enq x => exact refines_enq hs hwf
  | deq => exact refines_deq hs hwf
  | isEmpty => exact refines_isEmpty hs hwf
  | isFull => exact refines_isFull hs hwf
  | reset => exact refines_reset hs hwf

/-! Many events -/

/-- The abstract block after a list of events, and the responses they return. -/
def absExecAll : List Instr → AbsBlock → AbsBlock × List Response
  | [], b => (b, [])
  | i :: is, b =>
    ((absExecAll is (absExec i b).1).1, (absExec i b).2 :: (absExecAll is (absExec i b).1).2)

/-- Events that all answer a next state are well formed in the first state's configuration. -/
theorem wf_of_execAll_next {is : List Instr} (h : execAll is s = .next t) : ∀ i ∈ is, i.wf s.cfg := by
  induction is generalizing s with
  | nil => exact fun i hi => absurd hi List.not_mem_nil
  | cons i is ih =>
    obtain ⟨u, hu, ht⟩ := execAll_cons h
    refine List.forall_mem_cons.mpr ⟨wf_of_exec_next hu, ?_⟩
    rw [← (cfg_issuer_of_exec_next hu).1]
    exact ih ht

/-- What a state has returned beyond an earlier one is what was appended to the earlier one's responses. -/
theorem newResponses_of_append {rs : List (Agent × Response)} (h : t.responses = s.responses ++ rs) :
    newResponses s t = rs := by
  rw [newResponses, h, List.drop_left]

/-- R107 along a list of events: they complete and do what the abstract events do, and the invariant is kept. -/
theorem execAll_refines {is : List Instr} (hs : s.Inv) (hwf : ∀ i ∈ is, i.wf s.cfg) :
    ∃ t, execAll is s = .next t ∧ t.Inv ∧ t.cfg = s.cfg ∧ abstractOf t = (absExecAll is (abstractOf s)).1 ∧
      t.responses = s.responses ++ (absExecAll is (abstractOf s)).2.map fun q => (s.issuer, q) := by
  induction is generalizing s with
  | nil => exact ⟨s, rfl, hs, rfl, rfl, (List.append_nil _).symm⟩
  | cons i is ih =>
    obtain ⟨hi, his⟩ := List.forall_mem_cons.mp hwf
    obtain ⟨u, hu, habs, hresp⟩ := refines_of_wf hs hi
    obtain ⟨hcfg, hissuer⟩ := cfg_issuer_of_exec_next hu
    obtain ⟨t, ht, hinv, hcfg', habs', hresp'⟩ := ih (hs.exec_next hu) (by rwa [hcfg])
    refine ⟨t, by rw [execAll, hu]; exact ht, hinv, hcfg'.trans hcfg, ?_, ?_⟩
    · rw [habs', habs, absExecAll]
    · rw [hresp', hresp, habs, hissuer, absExecAll, List.map_cons, List.append_assoc, List.singleton_append]

/-- As many dequeues as there are items return them in order and leave none. -/
theorem absExecAll_drain (b : AbsBlock) :
    absExecAll (List.replicate b.q.length .deq) b = ({ b with q := [] }, b.q.map fun v => .deq (some v)) := by
  obtain ⟨n, position, acc, q⟩ := b
  induction q with
  | nil => rfl
  | cons v q ih => simp [List.replicate_succ, absExecAll, absExec, absDequeue, ih]

end Sys2Proof.Machine
end

section
/-! Settled obligations of the state (spec/10_state.md). -/

namespace Sys2Proof.Machine

variable {s t : State} {i : Instr} {a : Agent} {c : Config}

/-! Who writes what -/

/-- The producer side issues neither `DEQ` nor `RESET`. -/
theorem mayIssue_producerSide (h : mayIssue c a i = true) (ha : a = .bus ∨ a = .producer) : i ≠ .deq ∧ i ≠ .reset := by
  rcases ha with rfl | rfl <;> constructor <;> rintro rfl <;> cases h

/-- The PRODUCER port issues no edge. -/
theorem mayIssue_producer {d : Level} (h : mayIssue c .producer i = true) : i ≠ .edge d := by
  rintro rfl; cases h

/-- The CONSUMER issues `DEQ` and the status reads. -/
theorem mayIssue_consumer (h : mayIssue c .consumer i = true) : i = .deq ∨ i = .isEmpty ∨ i = .isFull := by
  cases i with
  | edge | enq | reset => cases h
  | deq | isEmpty | isFull => simp

/-- An event that neither dequeues nor resets keeps `r`, and at most fills the slot at `w`. -/
theorem exec_next_producerSide (h : exec i s = .next t) (hdeq : i ≠ .deq) (hreset : i ≠ .reset) :
    t.r = s.r ∧ (t.slots = s.slots ∨ ∃ x, t.slots = slotWrite s.slots s.w x) := by
  cases i with
  | edge d =>
    obtain ⟨-, ⟨-, rfl⟩ | ⟨-, -, rfl⟩⟩ := execEdge_next h
    · exact ⟨rfl, .inl rfl⟩
    · exact ⟨rfl, .inr ⟨s.acc, rfl⟩⟩
  | enq x => obtain ⟨-, -, rfl⟩ := execEnq_next h; exact ⟨rfl, .inr ⟨x, rfl⟩⟩
  | deq => exact absurd rfl hdeq
  | isEmpty => obtain ⟨-, rfl⟩ := execIsEmpty_next h; exact ⟨rfl, .inl rfl⟩
  | isFull => obtain ⟨-, rfl⟩ := execIsFull_next h; exact ⟨rfl, .inl rfl⟩
  | reset => exact absurd rfl hreset

/-- The consumer's events keep `w`, and at most clear the slot at `r`. -/
theorem exec_next_consumerSide (h : exec i s = .next t) (hi : i = .deq ∨ i = .isEmpty ∨ i = .isFull) :
    t.w = s.w ∧ (t.slots = s.slots ∨ t.slots = slotClear s.slots s.r) := by
  rcases hi with rfl | rfl | rfl
  · obtain ⟨-, ⟨-, rfl⟩ | ⟨-, -, v, -, rfl⟩⟩ := execDeq_next h
    · exact ⟨rfl, .inl rfl⟩
    · exact ⟨rfl, .inr rfl⟩
  · obtain ⟨-, rfl⟩ := execIsEmpty_next h; exact ⟨rfl, .inl rfl⟩
  · obtain ⟨-, rfl⟩ := execIsFull_next h; exact ⟨rfl, .inl rfl⟩

/-- Only edges and `RESET` write the sampler. -/
theorem sampler_of_exec_next (h : exec i s = .next t) (hedge : ∀ d, i ≠ .edge d) (hreset : i ≠ .reset) :
    t.bitCount = s.bitCount ∧ t.acc = s.acc := by
  cases i with
  | edge d => exact absurd rfl (hedge d)
  | enq x => obtain ⟨-, -, rfl⟩ := execEnq_next h; exact ⟨rfl, rfl⟩
  | deq => obtain ⟨-, ⟨-, rfl⟩ | ⟨-, -, v, -, rfl⟩⟩ := execDeq_next h <;> exact ⟨rfl, rfl⟩
  | isEmpty => obtain ⟨-, rfl⟩ := execIsEmpty_next h; exact ⟨rfl, rfl⟩
  | isFull => obtain ⟨-, rfl⟩ := execIsFull_next h; exact ⟨rfl, rfl⟩
  | reset => exact absurd rfl hreset

/-- A slot that a write changes is occupied afterwards. -/
theorem slotRead_slotWrite_ne_none {m : Memory} {k j : Nat} {x : Byte}
    (h : slotRead (slotWrite m k x) j ≠ slotRead m j) : slotRead (slotWrite m k x) j ≠ none := by
  have hj : j = k := by_contra fun hj => h (slotRead_slotWrite_ne m x hj)
  simp [hj]

/-- A slot that a clear changes is empty afterwards. -/
theorem slotRead_slotClear_eq_none {m : Memory} {k j : Nat}
    (h : slotRead (slotClear m k) j ≠ slotRead m j) : slotRead (slotClear m k) j = none := by
  have hj : j = k := by_contra fun hj => h (slotRead_slotClear_ne m hj)
  simp [hj]

/-- With an event next, a step that answers is that event, run by an agent that may issue it. -/
theorem exec_of_step_next {e : EventWord} (hn : nextEvent s = some (a, e)) (h : step s = .next t) :
    ∃ i, mayIssue s.cfg a i = true ∧ exec i (takeEvent a s) = .next t := by
  rcases step_next h with ⟨hnone, -⟩ | ⟨a', e', i, hsome, -, hmay, ht⟩
  · rw [hn] at hnone; cases hnone
  · rw [hn] at hsome; cases hsome; exact ⟨i, hmay, ht⟩

/-! The obligations -/

/-- Settles O46: both states have one abstraction, and along the events each goes through the abstract block's states
and returns its responses (`execAll_refines`). -/
theorem staleSlotsAreUnobservable : Obligations.StaleSlotsAreUnobservable := by
  intro is s s' t hs hs' hcfg hbit hacc hvis ht
  have habs : abstractOf s = abstractOf s' := by simp only [abstractOf, hcfg, hbit, hacc, hvis]
  have hwf := wf_of_execAll_next ht
  obtain ⟨u, hu, -, -, hsame, hresp⟩ := execAll_refines hs hwf
  obtain rfl : u = t := Host.Outcome.next.inj (hu.symm.trans ht)
  obtain ⟨t', ht', -, -, hsame', hresp'⟩ := execAll_refines hs' (hcfg ▸ hwf)
  have hend : abstractOf u = abstractOf t' := by rw [hsame, hsame', habs]
  obtain ⟨-, hpos, hacc', hvis'⟩ := AbsBlock.mk.inj hend
  refine ⟨t', ht', hvis', BitVec.eq_of_toNat_eq hpos, hacc', ?_⟩
  rw [newResponses_of_append hresp, newResponses_of_append hresp', habs, List.map_map, List.map_map]
  rfl

/-- Settles O51: a step passes the turn or runs one event, and every event keeps the invariant. -/
theorem everyStepKeepsInvariant : Obligations.EveryStepKeepsInvariant := by
  intro s t hs h
  rcases step_next h with ⟨-, rfl⟩ | ⟨a, e, i, -, -, -, ht⟩
  · exact hs.passTurn
  · exact (hs.takeEvent a).exec_next ht

/-- Settles O22: `count` dequeues drain the abstract queue, and a queue without visible items answers `None`. -/
theorem consumerAloneDrainsVisible : Obligations.ConsumerAloneDrainsVisible := by
  intro s hs
  have hdeq : Instr.deq.wf s.cfg := (wf_iff _ _).mpr ⟨hs.capacity, rfl⟩
  have hdrain := absExecAll_drain (abstractOf s)
  rw [show (abstractOf s).q.length = count s from length_visible hs] at hdrain
  obtain ⟨t, ht, hinv, hcfg, habs, hresp⟩ :=
    execAll_refines (is := List.replicate (count s) .deq) hs fun i hi => by rwa [List.eq_of_mem_replicate hi]
  rw [hdrain] at habs hresp
  have hnil : visible t = [] := congrArg AbsBlock.q habs
  refine ⟨length_visible hs, count_lt hs.readIndex, t, ht, ?_, ?_⟩
  · rw [newResponses_of_append hresp, List.map_map]
    rfl
  · exact execDeq_empty (by rwa [hcfg]) ((visible_eq_nil_iff hinv).mp hnil)

/-- Settles O23: both statuses are facts about the occupancy, and the enqueue accepts exactly below it. -/
theorem statusesAreOccupancy : Obligations.StatusesAreOccupancy := by
  intro s hs
  refine ⟨rfl, emptyFlag_eq_true_iff hs, rfl, fullFlag_eq_true_iff hs, fun x => ⟨_, enqueue_eq x hs.writeIndex, ?_⟩⟩
  simp [acceptedFlag_eq hs, fullFlag_eq_true_iff hs]

/-- Settles O44: the agent of a step limits its event, and the event limits what is written. -/
theorem ownershipBySide : Obligations.OwnershipBySide := by
  intro s t a e hn h
  obtain ⟨i, hmay, ht⟩ := exec_of_step_next hn h
  refine ⟨fun ha => ?_, ?_, ?_⟩
  · obtain ⟨hdeq, hreset⟩ := mayIssue_producerSide hmay ha
    obtain ⟨hr, hslots⟩ := exec_next_producerSide ht hdeq hreset
    rw [takeEvent_slots] at hslots
    refine ⟨hr.trans (takeEvent_r s a), fun j hj => ?_⟩
    rcases hslots with hsame | ⟨x, hwrite⟩
    · rw [hsame] at hj; exact absurd rfl hj
    · rw [hwrite] at hj ⊢; exact slotRead_slotWrite_ne_none hj
  · rintro rfl
    obtain ⟨-, hreset⟩ := mayIssue_producerSide hmay (.inr rfl)
    simpa using sampler_of_exec_next ht (fun d => mayIssue_producer hmay) hreset
  · rintro rfl
    have hi := mayIssue_consumer hmay
    obtain ⟨hbit, hacc⟩ := sampler_of_exec_next ht (by rintro d rfl; simp at hi) (by rintro rfl; simp at hi)
    obtain ⟨hw, hslots⟩ := exec_next_consumerSide ht hi
    rw [takeEvent_slots] at hslots
    refine ⟨hbit.trans (takeEvent_bitCount s _), hacc.trans (takeEvent_acc s _), hw.trans (takeEvent_w s _),
      fun j hj => ?_⟩
    rcases hslots with hsame | hclear
    · rw [hsame] at hj; exact absurd rfl hj
    · rw [hclear] at hj ⊢; exact slotRead_slotClear_eq_none hj

/-- Settles O45: each answer of the consumer's events is given by `r`, `w`, the slots and the configuration. -/
theorem consumerCannotSeeSampler : Obligations.ConsumerCannotSeeSampler := by
  rintro i s t b a (rfl | rfl | rfl) h
  · obtain ⟨hwf, ⟨hempty, rfl⟩ | ⟨hne, hr, v, hv, rfl⟩⟩ := execDeq_next h
    · exact execDeq_empty (s := setSampler b a s) hwf hempty
    · exact execDeq_item (s := setSampler b a s) hwf hne hr hv
  · obtain ⟨hwf, rfl⟩ := execIsEmpty_next h
    exact execIsEmpty_eq (s := setSampler b a s) hwf
  · obtain ⟨hwf, rfl⟩ := execIsFull_next h
    exact execIsFull_eq (s := setSampler b a s) hwf

/-- Settles O10: no phase belongs to such a position (`execEdge_fault`). -/
theorem edgeFaultsPastLastPosition : Obligations.EdgeFaultsPastLastPosition :=
  fun _ _ hwf hb => execEdge_fault hwf hb

/-- Settles O33: the values are written by `resetBlock` and by `poweredOn`, and a cleared queue is empty and not full. -/
theorem resetValues : Obligations.ResetValues := by
  refine ⟨fun s t h => ?_, fun c bus producer consumer harness schedule hc => ?_, rfl, rfl, fun _ => rfl, rfl, rfl⟩
  · obtain ⟨hwf, rfl⟩ := execReset_next h
    obtain ⟨hn, -⟩ := (wf_iff _ _).mp hwf
    exact ⟨rfl, rfl, fun _ => rfl, rfl, rfl, statuses_of_cleared hn rfl rfl⟩
  · have hn : 2 ≤ c.n := of_decide_eq_true hc
    exact ⟨rfl, rfl, fun _ => rfl, rfl, rfl, statuses_of_cleared hn rfl rfl⟩

/-- Settles O50: the block at power-on is cleared, in every configuration. -/
theorem invariantHoldsAtPowerOn : Obligations.InvariantHoldsAtPowerOn := by
  refine ⟨inv_of_cleared (by decide) rfl rfl rfl rfl, fun c bus producer consumer harness schedule hc => ?_⟩
  have hn : 2 ≤ c.n := of_decide_eq_true hc
  exact inv_of_cleared hn rfl rfl rfl rfl

end Sys2Proof.Machine
end

section
/-! Delivery (spec/20_memory.md R47): an event returns and keeps visible what was visible and what it enqueues, except
for what an overrun discards. -/

namespace Sys2Proof.Machine

variable {s t : State} {i : Instr}

/-- The abstract enqueue keeps the items and the byte, in order, or overruns. -/
theorem absEnqueue_delivers (n : Nat) (q : List Byte) (x : Byte) :
    (absEnqueue n q x).1.Sublist (q ++ [x]) ∧
      (condOf (absEnqueue n q x).2.1 ≠ .overrun → q ++ [x] = (absEnqueue n q x).1) := by
  by_cases hroom : q.length < n - 1
  · simp [absEnqueue, hroom]
  · simp [absEnqueue, hroom, condOf]

/-- The abstract dequeue returns the oldest item and keeps the others. -/
theorem absDequeue_delivers (q : List Byte) : q = (absDequeue q).2.toList ++ (absDequeue q).1 := by
  cases q <;> rfl

/-- What it means that an event answered by `q` loses nothing out of order on its way from `s` to `t`: the byte it
returns and the items left are among the items before and the byte it enqueues, and all of them without an overrun. -/
def Delivers (i : Instr) (s : State) (q : Response) (t : State) : Prop :=
  (q.item.toList ++ visible t).Sublist (visible s ++ (enqueuedBy i s).toList) ∧
    (q.cond ≠ .overrun → visible s ++ (enqueuedBy i s).toList = q.item.toList ++ visible t)

/-- An event that enqueues nothing delivers when it takes its answer from the front of the items. -/
theorem delivers_of_visible_eq {q : Response} (henq : enqueuedBy i s = none)
    (h : visible s = q.item.toList ++ visible t) : Delivers i s q t := by
  simp [Delivers, henq, h]

/-- An event that enqueues `x` delivers when it leaves the items that the abstract enqueue leaves. -/
theorem delivers_of_absEnqueue {x : Byte} {q : Response} (henq : enqueuedBy i s = some x) (hitem : q.item = none)
    (hcond : q.cond = condOf (absEnqueue s.cfg.n (visible s) x).2.1)
    (hvis : visible t = (absEnqueue s.cfg.n (visible s) x).1) : Delivers i s q t := by
  simpa [Delivers, henq, hitem, hcond, hvis] using absEnqueue_delivers s.cfg.n (visible s) x

/-- Every event but `RESET` delivers. -/
theorem exec_delivers (hs : s.Inv) (hreset : i ≠ .reset) (h : exec i s = .next t) :
    ∃ q, t.responses = s.responses ++ [(s.issuer, q)] ∧ Delivers i s q t := by
  obtain ⟨u, hu, habs, hresp⟩ := refines_of_wf hs (wf_of_exec_next h)
  obtain rfl : u = t := Host.Outcome.next.inj (hu.symm.trans h)
  have hvis : visible u = (absExec i (abstractOf s)).1.q := congrArg AbsBlock.q habs
  refine ⟨_, hresp, ?_⟩
  cases i with
  | edge d =>
    by_cases hb : s.bitCount.toNat = 10
    · have hstop : absExec (.edge d) (abstractOf s) = absExec (.edge d) { abstractOf s with position := 10 } := by
        simp only [abstractOf, hb]
      rw [hstop] at hvis ⊢
      exact delivers_of_absEnqueue (if_pos hb) rfl rfl hvis
    · rw [absExec_edge_midFrame (b := abstractOf s) hb] at hvis ⊢
      exact delivers_of_visible_eq (by simp [enqueuedBy, hb]) hvis.symm
  | enq x => exact delivers_of_absEnqueue rfl rfl rfl hvis
  | deq => exact delivers_of_visible_eq rfl ((absDequeue_delivers (visible s)).trans (congrArg _ hvis.symm))
  | isEmpty => exact delivers_of_visible_eq rfl hvis.symm
  | isFull => exact delivers_of_visible_eq rfl hvis.symm
  | reset => exact absurd rfl hreset

theorem enqueuedIn_cons {is : List Instr} (h : exec i s = .next t) :
    enqueuedIn (i :: is) s = (enqueuedBy i s).toList ++ enqueuedIn is t := by
  rw [enqueuedIn, h]

theorem returned_cons (a : Agent) (q : Response) (rs : List (Agent × Response)) :
    returned ((a, q) :: rs) = q.item.toList ++ returned rs := by
  cases hq : q.item <;> simp [returned, hq]

/-- R47 from any visible items: they come before what is enqueued. -/
theorem execAll_delivers {is : List Instr} (hs : s.Inv) (hreset : Instr.reset ∉ is) (h : execAll is s = .next t) :
    ∃ rs, t.responses = s.responses ++ rs ∧ (returned rs).Sublist (visible s ++ enqueuedIn is s) ∧
      ((∀ p ∈ rs, p.2.cond ≠ .overrun) → visible s ++ enqueuedIn is s = returned rs ++ visible t) := by
  induction is generalizing s with
  | nil =>
    cases h
    exact ⟨[], (List.append_nil _).symm, List.nil_sublist _, fun _ => List.append_nil _⟩
  | cons i is ih =>
    obtain ⟨hi, his⟩ := List.ne_and_not_mem_of_not_mem_cons hreset
    obtain ⟨u, hu, ht⟩ := execAll_cons h
    obtain ⟨q, hq, hsub, heq⟩ := exec_delivers hs (Ne.symm hi) hu
    obtain ⟨rs, hrs, hsubs, heqs⟩ := ih (hs.exec_next hu) his ht
    refine ⟨(s.issuer, q) :: rs, by simp [hrs, hq], ?_, fun hno => ?_⟩ <;>
      rw [enqueuedIn_cons hu, returned_cons, ← List.append_assoc]
    · have hrest := hsubs.append_left q.item.toList
      rw [← List.append_assoc] at hrest
      exact hrest.trans (hsub.append_right _)
    · obtain ⟨hno1, hnos⟩ := List.forall_mem_cons.mp hno
      rw [heq hno1, List.append_assoc, heqs hnos, List.append_assoc]

/-- Settles O30: from an empty queue nothing is visible before what is enqueued (`execAll_delivers`). -/
theorem deliveryIsFifoSubsequence : Obligations.DeliveryIsFifoSubsequence := by
  intro is s t hs hempty hreset h
  obtain ⟨rs, hrs, hsub, heq⟩ := execAll_delivers hs hreset h
  rw [(visible_eq_nil_iff hs).mpr hempty, List.nil_append] at hsub heq
  rw [newResponses_of_append hrs]
  exact ⟨hsub, heq⟩

end Sys2Proof.Machine
end

section
/-! The agents' lists and the serialization along steps (spec/20_memory.md R45): a step uses up one turn and the first
word of the agent whose turn it was, refused or not. -/

namespace Sys2Proof.Machine

variable {s t : State} {i : Instr} {a : Agent} {e : EventWord}

/-- No event touches the turns or the words not yet served. -/
theorem ports_of_exec_next (h : exec i s = .next t) :
    t.schedule = s.schedule ∧ ∀ a, pendingAt a t = pendingAt a s := by
  cases i with
  | edge d =>
    obtain ⟨-, ⟨-, rfl⟩ | ⟨-, -, rfl⟩⟩ := execEdge_next h <;> exact ⟨rfl, fun a => by cases a <;> rfl⟩
  | enq x => obtain ⟨-, -, rfl⟩ := execEnq_next h; exact ⟨rfl, fun a => by cases a <;> rfl⟩
  | deq =>
    obtain ⟨-, ⟨-, rfl⟩ | ⟨-, -, v, -, rfl⟩⟩ := execDeq_next h <;> exact ⟨rfl, fun a => by cases a <;> rfl⟩
  | isEmpty => obtain ⟨-, rfl⟩ := execIsEmpty_next h; exact ⟨rfl, fun a => by cases a <;> rfl⟩
  | isFull => obtain ⟨-, rfl⟩ := execIsFull_next h; exact ⟨rfl, fun a => by cases a <;> rfl⟩
  | reset => obtain ⟨-, rfl⟩ := execReset_next h; exact ⟨rfl, fun a => by cases a <;> rfl⟩

theorem skipEvent_of_none (h : nextEvent s = none) : skipEvent s = passTurn s := by rw [skipEvent, h]

theorem skipEvent_of_some (h : nextEvent s = some (a, e)) : skipEvent s = consumeEvent a s := by rw [skipEvent, h]

@[simp] theorem skipEvent_schedule (s : State) : (skipEvent s).schedule = s.schedule.tail := by
  cases h : nextEvent s with
  | none => rw [skipEvent_of_none h, passTurn_schedule]
  | some p => rw [skipEvent_of_some h, consumeEvent_schedule]

@[simp] theorem skipEvent_cfg (s : State) : (skipEvent s).cfg = s.cfg := by
  cases h : nextEvent s with
  | none => rw [skipEvent_of_none h, passTurn_cfg]
  | some p => rw [skipEvent_of_some h, consumeEvent_cfg]

/-- Passing over an event uses up its word, the first of its agent's, and no other word. -/
theorem pendingAt_skipEvent (a : Agent) (s : State) :
    pendingAt a (skipEvent s) =
      if (nextEvent s).map Prod.fst = some a then (pendingAt a s).tail else pendingAt a s := by
  cases h : nextEvent s with
  | none => simp [skipEvent_of_none h]
  | some p =>
    obtain ⟨b, e⟩ := p
    rw [skipEvent_of_some h]
    by_cases hb : b = a
    · subst hb; simp [consumeEvent]
    · simp [consumeEvent, hb, pendingAt_setPending_ne _ _ (Ne.symm hb)]

/-- An agent with words has one served exactly at its turns. -/
theorem nextEvent_fst_eq_some_iff (hp : pendingAt a s ≠ []) :
    (nextEvent s).map Prod.fst = some a ↔ s.schedule.head? = some a := by
  constructor
  · intro h
    obtain ⟨⟨b, e⟩, hn, rfl⟩ := Option.map_eq_some_iff.mp h
    obtain ⟨rest, es, hsched, -⟩ := nextEvent_some hn
    simp [hsched]
  · intro h
    obtain ⟨rest, hsched⟩ := List.head?_eq_some_iff.mp h
    obtain ⟨e, es, hes⟩ := List.exists_cons_of_ne_nil hp
    simp [nextEvent_of hsched hes]

/-- Passing over an event uses up the first word of the agent whose turn it is, if there is one. -/
theorem pendingAt_skipEvent_eq_drop (a : Agent) (s : State) :
    pendingAt a (skipEvent s) = (pendingAt a s).drop ((s.schedule.take 1).count a) := by
  by_cases hp : pendingAt a s = []
  · simp [pendingAt_skipEvent, hp]
  · simp only [pendingAt_skipEvent, nextEvent_fst_eq_some_iff hp]
    cases hsched : s.schedule with
    | nil => simp
    | cons b rest => by_cases hb : b = a <;> simp [hb]

/-- A step that answers leaves the turns and the words that passing over its event leaves. -/
theorem ports_of_step_next (h : step s = .next t) :
    t.schedule = (skipEvent s).schedule ∧ ∀ a, pendingAt a t = pendingAt a (skipEvent s) := by
  rcases step_next h with ⟨hnone, rfl⟩ | ⟨a, e, i, hsome, -, -, ht⟩
  · rw [skipEvent_of_none hnone]
    exact ⟨rfl, fun _ => rfl⟩
  · rw [skipEvent_of_some hsome]
    obtain ⟨hsched, hpend⟩ := ports_of_exec_next ht
    exact ⟨hsched, fun b => (hpend b).trans (by cases b <;> rfl)⟩

/-- Settles O42: step by step, one turn is used up and the agent whose turn it was loses its first word. -/
theorem programOrderPerPort : Obligations.ProgramOrderPerPort := by
  intro k
  induction k with
  | zero => intro s t h; cases h; exact ⟨rfl, fun _ => rfl⟩
  | succ k ih =>
    intro s t h
    obtain ⟨u, hu, ht⟩ := stepAll_succ h
    obtain ⟨hsched, hpend⟩ := ports_of_step_next hu
    obtain ⟨hsched', hpend'⟩ := ih u t ht
    rw [skipEvent_schedule] at hsched
    refine ⟨by rw [hsched', hsched, List.drop_tail], fun a => ?_⟩
    have hcount : (s.schedule.take (k + 1)).count a =
        (s.schedule.take 1).count a + (s.schedule.tail.take k).count a := by
      rw [← List.count_append, ← List.drop_one, ← List.take_add, Nat.add_comm 1 k]
    rw [hpend', hpend, pendingAt_skipEvent_eq_drop, hsched, List.drop_drop, hcount]

end Sys2Proof.Machine
end

section
/-! Endless runs (spec/20_memory.md R46, decision D24): no step of one faults, and under weak fairness every word of an
agent comes to the front of its list and is served. -/

namespace Sys2Proof.Machine

variable {s t : State} {i : Instr} {a : Agent} {e : EventWord} {ρ : Run} {env : Environment} {k m : Nat}

/-! One step from a state of the invariant -/

theorem State.Inv.skipEvent (hs : s.Inv) : (skipEvent s).Inv := by
  cases h : nextEvent s with
  | none => rw [skipEvent_of_none h]; exact hs.passTurn
  | some p =>
    rw [skipEvent_of_some h]
    exact hs.congr (consumeEvent_cfg s _) (consumeEvent_bitCount s _) (consumeEvent_slots s _) (consumeEvent_r s _)
      (consumeEvent_w s _)

theorem State.Inv.offerTo (hs : s.Inv) (o : Offer) : (offerTo o s).Inv :=
  hs.congr (offerTo_cfg s o) (offerTo_bitCount s o) (offerTo_slots s o) (offerTo_r s o) (offerTo_w s o)

/-- A word that decodes spells an event that the configuration admits. -/
theorem admittedBy_of_decode {c : Config} (h : decode c e = .ok i) : i.admittedBy c := by
  unfold decode at h
  split at h
  · cases h
  · split at h
    · cases h
    · next hport => cases h; exact (portRefusal_eq_none_iff c _).mp hport

theorem condOf_eq_overrun_iff (ok : Bool) : condOf ok = .overrun ↔ ok = false := by
  cases ok <;> simp [condOf]

/-- The abstract response has its event's form (30_encoding.md R66). -/
theorem absExec_isFor (i : Instr) (b : AbsBlock) : (absExec i b).2.isFor i := by
  cases i with
  | edge d =>
    by_cases hb : b.position = 10
    · simp only [absExec, if_pos hb]
      exact ⟨_, _, _, _, _, rfl, nofun, by simp [condOf_eq_overrun_iff]⟩
    · rw [absExec_edge_midFrame hb]
      simp [noFrame, Response.isFor]
  | enq x => exact ⟨_, _, _, rfl, condOf_eq_overrun_iff _⟩
  | deq => exact ⟨_, rfl⟩
  | isEmpty => exact ⟨_, rfl⟩
  | isFull => exact ⟨_, rfl⟩
  | reset => rfl

/-- R66: the next event, when its word decodes and its agent may issue it, completes with one response of its form. -/
theorem step_answers (hs : s.Inv) (hn : nextEvent s = some (a, e)) (hd : decode s.cfg e = .ok i)
    (hm : mayIssue s.cfg a i = true) :
    ∃ t q, step s = .next t ∧ t.responses = s.responses ++ [(a, q)] ∧ q.isFor i := by
  have hwf : i.wf (takeEvent a s).cfg := by
    rw [takeEvent_cfg]; exact (wf_iff _ _).mpr ⟨hs.capacity, admittedBy_of_decode hd⟩
  obtain ⟨t, ht, -, hresp⟩ := refines_of_wf (hs.takeEvent a) hwf
  rw [takeEvent_responses, takeEvent_issuer] at hresp
  exact ⟨t, _, (step_event hn hd hm).trans ht, hresp, absExec_isFor i _⟩

theorem readEvent_ok {c : Config} (h : readEvent c a e = .ok i) : decode c e = .ok i ∧ mayIssue c a i = true := by
  unfold readEvent at h
  split at h
  · cases h
  · next j hd =>
    split at h
    · next hm => cases h; exact ⟨hd, hm⟩
    · cases h

/-- From a state of the invariant a step answers or refuses. -/
theorem step_ne_fault (hs : s.Inv) (f : Fault) : step s ≠ .fault f := by
  cases hn : nextEvent s with
  | none => simp [step, hn]
  | some p =>
    obtain ⟨a, e⟩ := p
    cases hr : readEvent s.cfg a e with
    | error why => simp [step, hn, hr]
    | ok i =>
      obtain ⟨hd, hm⟩ := readEvent_ok hr
      obtain ⟨t, q, ht, -⟩ := step_answers hs hn hd hm
      simp [ht]

/-! One step of a run -/

/-- Everything a step of a run can do from a state of the invariant: the block's step, or passing over its event. -/
theorem advance_cases (hf : ρ.fault = none) (hs : ρ.state.Inv) :
    ρ.advance.fault = none ∧ (step ρ.state = .next ρ.advance.state ∨ ρ.advance.state = skipEvent ρ.state) := by
  cases hstep : step ρ.state with
  | next t => simp [Run.advance, hf, hstep]
  | fault f => exact absurd hstep (step_ne_fault hs f)
  | refused why => simp [Run.advance, hf, hstep]

theorem advance_of_step_next (hf : ρ.fault = none) (h : step ρ.state = .next t) : ρ.advance.state = t := by
  simp [Run.advance, hf, h]

/-- A step keeps the invariant and the configuration. -/
theorem State.Inv.step_next (hs : s.Inv) (h : step s = .next t) : t.Inv ∧ t.cfg = s.cfg := by
  rcases Machine.step_next h with ⟨-, rfl⟩ | ⟨a, e, i, -, -, -, ht⟩
  · exact ⟨hs.passTurn, rfl⟩
  · exact ⟨(hs.takeEvent a).exec_next ht, (cfg_issuer_of_exec_next ht).1.trans (takeEvent_cfg s a)⟩

/-- A run that has not faulted, at a state of the invariant, in the configuration `c`. -/
structure Run.Sound (ρ : Run) (c : Config) : Prop where
  noFault : ρ.fault = none
  inv : ρ.state.Inv
  cfg : ρ.state.cfg = c

theorem Run.Sound.offered {c : Config} (h : ρ.Sound c) (o : Offer) : (ρ.offered o).Sound c :=
  ⟨h.noFault, h.inv.offerTo o, (offerTo_cfg _ o).trans h.cfg⟩

theorem Run.Sound.advance {c : Config} (h : ρ.Sound c) : ρ.advance.Sound c := by
  obtain ⟨hf, hstep | hskip⟩ := advance_cases h.noFault h.inv
  · obtain ⟨hinv, hcfg⟩ := h.inv.step_next hstep
    exact ⟨hf, hinv, hcfg.trans h.cfg⟩
  · exact ⟨hf, hskip ▸ h.inv.skipEvent, by rw [hskip, skipEvent_cfg, h.cfg]⟩

theorem Run.Sound.run {c : Config} (h : ρ.Sound c) (env : Environment) (k : Nat) : (env.run ρ k).Sound c := by
  induction k with
  | zero => exact h
  | succ k ih => exact (ih.offered (env k)).advance

/-- A step of a run leaves the words that passing over its event leaves. -/
theorem pendingAt_advance {c : Config} (h : ρ.Sound c) (a : Agent) :
    pendingAt a ρ.advance.state = pendingAt a (skipEvent ρ.state) := by
  obtain ⟨-, hstep | hskip⟩ := advance_cases h.noFault h.inv
  · exact (ports_of_step_next hstep).2 a
  · rw [hskip]

/-! The agent's list along an endless run -/

/-- Step `k` of an endless run serves a word of the agent `a`. -/
abbrev Environment.Serves (env : Environment) (ρ : Run) (a : Agent) (k : Nat) : Prop :=
  (nextEvent (env.facing ρ k)).map Prod.fst = some a

/-- The word is the one served after `m` others of its agent's, counted from step `k` on. -/
def Environment.ServedAfter (env : Environment) (ρ : Run) (a : Agent) (e : EventWord) (k m : Nat) : Prop :=
  ∃ d, nextEvent (env.facing ρ (k + d)) = some (a, e) ∧ env.served ρ a k d = m

theorem served_succ (env : Environment) (ρ : Run) (a : Agent) (k d : Nat) :
    env.served ρ a k (d + 1) = env.served ρ a (k + 1) d + if env.Serves ρ a k then 1 else 0 := by
  simp only [Environment.served, List.range_succ_eq_map, List.countP_cons, List.countP_map, Function.comp_def,
    Nat.succ_eq_add_one, Nat.add_zero, beq_iff_eq, Nat.add_assoc, Nat.add_comm 1]

theorem servedAfter_of_serves (hserve : env.Serves ρ a k) (h : env.ServedAfter ρ a e (k + 1) m) :
    env.ServedAfter ρ a e k (m + 1) := by
  obtain ⟨d, hn, hd⟩ := h
  exact ⟨d + 1, by rwa [← Nat.add_assoc, Nat.add_right_comm], by rw [served_succ, hd, if_pos hserve]⟩

theorem servedAfter_of_not_serves (hserve : ¬ env.Serves ρ a k) (h : env.ServedAfter ρ a e (k + 1) m) :
    env.ServedAfter ρ a e k m := by
  obtain ⟨d, hn, hd⟩ := h
  exact ⟨d + 1, by rwa [← Nat.add_assoc, Nat.add_right_comm], by rw [served_succ, hd, if_neg hserve, Nat.add_zero]⟩

/-- A word at the front of its agent's list is the one a step serving the agent serves. -/
theorem servedAfter_zero (hserve : env.Serves ρ a k) (hm : (pendingAt a (env.facing ρ k))[0]? = some e) :
    env.ServedAfter ρ a e k 0 := by
  obtain ⟨⟨b, e'⟩, hn, rfl⟩ := Option.map_eq_some_iff.mp hserve
  obtain ⟨rest, es, -, hp⟩ := nextEvent_some hn
  rw [hp] at hm
  cases hm
  exact ⟨0, hn, rfl⟩

/-- What the environment offers comes behind the words that a step leaves. -/
theorem place_facing_succ {c : Config} (h : ρ.Sound c)
    (hm : (pendingAt a (skipEvent (env.facing ρ k)))[m]? = some e) :
    (pendingAt a (env.facing ρ (k + 1)))[m]? = some e := by
  have hleft : pendingAt a (env.run ρ (k + 1)).state = pendingAt a (skipEvent (env.facing ρ k)) :=
    pendingAt_advance ((h.run env k).offered (env k)) a
  obtain ⟨hlt, -⟩ := List.getElem?_eq_some_iff.mp hm
  rw [Environment.facing, pendingAt_offerTo, hleft, List.getElem?_append_left hlt, hm]

/-- A step that serves its agent brings a word one place nearer to the front. -/
theorem place_of_serves {c : Config} (h : ρ.Sound c) (hserve : env.Serves ρ a k)
    (hm : (pendingAt a (env.facing ρ k))[m + 1]? = some e) : (pendingAt a (env.facing ρ (k + 1)))[m]? = some e :=
  place_facing_succ h (by rwa [pendingAt_skipEvent, if_pos hserve, List.getElem?_tail])

/-- A step that does not serve its agent leaves a word at its place. -/
theorem place_of_not_serves {c : Config} (h : ρ.Sound c) (hserve : ¬ env.Serves ρ a k)
    (hm : (pendingAt a (env.facing ρ k))[m]? = some e) : (pendingAt a (env.facing ρ (k + 1)))[m]? = some e :=
  place_facing_succ h (by rwa [pendingAt_skipEvent, if_neg hserve])

theorem pendingAt_ne_nil_of_place (hm : (pendingAt a s)[m]? = some e) : pendingAt a s ≠ [] := by
  intro hnil; simp [hnil] at hm

/-- Fairness gives an agent with a word a turn. -/
theorem exists_turn (hfair : env.Fair ρ) (hm : (pendingAt a (env.facing ρ k))[m]? = some e) :
    ∃ d, (env.facing ρ (k + d)).schedule.head? = some a := by
  obtain ⟨j, hj, hturn⟩ := hfair a k (pendingAt_ne_nil_of_place hm)
  obtain ⟨d, rfl⟩ := Nat.exists_eq_add_of_le hj
  exact ⟨d, hturn⟩

/-- A word keeps its place until its agent is served, which is at the agent's next turn at the latest. -/
theorem servedAfter_of_turn {c : Config} {d : Nat} (h : ρ.Sound c)
    (hturn : (env.facing ρ (k + d)).schedule.head? = some a)
    (hserved : ∀ j, env.Serves ρ a j → (pendingAt a (env.facing ρ j))[m]? = some e → env.ServedAfter ρ a e j m)
    (hm : (pendingAt a (env.facing ρ k))[m]? = some e) : env.ServedAfter ρ a e k m := by
  induction d generalizing k with
  | zero => exact hserved k ((nextEvent_fst_eq_some_iff (pendingAt_ne_nil_of_place hm)).mpr hturn) hm
  | succ d ih =>
    by_cases hserve : env.Serves ρ a k
    · exact hserved k hserve hm
    · have hturn' : (env.facing ρ (k + 1 + d)).schedule.head? = some a := by rwa [Nat.add_right_comm]
      exact servedAfter_of_not_serves hserve (ih hturn' (place_of_not_serves h hserve hm))

/-- Under fairness every word is served, after the words before it: each time its agent is served it comes one place
nearer to the front. -/
theorem servedAfter_of_fair {c : Config} (h : ρ.Sound c) (hfair : env.Fair ρ)
    (hm : (pendingAt a (env.facing ρ k))[m]? = some e) : env.ServedAfter ρ a e k m := by
  induction m generalizing k with
  | zero =>
    obtain ⟨d, hturn⟩ := exists_turn hfair hm
    exact servedAfter_of_turn h hturn (fun j => servedAfter_zero) hm
  | succ m ih =>
    obtain ⟨d, hturn⟩ := exists_turn hfair hm
    exact servedAfter_of_turn h hturn
      (fun j hserve hplace => servedAfter_of_serves hserve (ih (place_of_serves h hserve hplace))) hm

/-- Settles O56: the word is served at its place (`servedAfter_of_fair`), and the step that serves it answers its agent
when it is admitted (`step_answers`). -/
theorem fairRunsServeEveryEvent : Obligations.FairRunsServeEveryEvent := by
  intro env ρ a k m e hf hs hfair hm
  have hsound : ρ.Sound ρ.state.cfg := ⟨hf, hs, rfl⟩
  obtain ⟨d, hn, hd⟩ := servedAfter_of_fair hsound hfair hm
  refine ⟨d, hn, hd, fun i hdec hmay => ?_⟩
  have hfacing := (hsound.run env (k + d)).offered (env (k + d))
  obtain ⟨t, q, ht, hresp, hform⟩ := step_answers hfacing.inv hn (by rwa [hfacing.cfg]) (by rwa [hfacing.cfg])
  have hnext : (env.run ρ (k + d + 1)).state = t := advance_of_step_next hfacing.noFault ht
  exact ⟨q, hform, hnext ▸ ht, hnext ▸ hresp⟩

end Sys2Proof.Machine
end

section
/-! Settled obligations of the queue's memory (spec/20_memory.md R40, R48). -/

namespace Sys2Proof.Machine

variable {s : State}

theorem enqueue_outside (x : Byte) (hw : s.cfg.n ≤ s.w) : enqueue x s = .error .slotIndexOutOfRange := by
  simp [enqueue, inSpace, Nat.not_lt.mpr hw]

theorem takeHead_outside (hr : s.cfg.n ≤ s.r) : takeHead s = .error .slotIndexOutOfRange := by
  simp [takeHead, inSpace, Nat.not_lt.mpr hr]

/-- Settles O21: each of the three accesses asks `inSpace` before it touches a slot (`enqueue_outside`,
`takeHead_outside`). -/
theorem accessOutsideSlotSpaceFaults : Obligations.AccessOutsideSlotSpaceFaults := by
  refine ⟨fun x s hwf hw => ?_, fun d s hwf hb hw => ?_, fun s hwf hne hr => ?_⟩
  · rw [exec, execEnq, whenAdmitted_of_wf hwf, enqueue_outside x hw]
  · rw [exec, execEdge, whenAdmitted_of_wf hwf]
    simp [phaseOf, hb, completeFrame, enqueue_outside _ hw]
  · rw [exec, execDeq, whenAdmitted_of_wf hwf]
    simp [emptyFlag, hne, takeHead_outside hr]

/-- Two slots on the external port, nothing enqueued. -/
def twoSlots : State := poweredOn ⟨2, .external⟩ [] [] [] [] []

theorem twoSlots_inv : twoSlots.Inv := inv_of_cleared (by decide) rfl rfl rfl rfl

/-- Settles O31: on two slots at power-on the byte enqueued after the read is dequeued; with one byte enqueued before,
the queue is full and the enqueue after the read overruns. -/
theorem statusReadIsNoPromise : Obligations.StatusReadIsNoPromise := by
  have hfull : (enqDone twoSlots 0x11).Inv := (twoSlots_inv.enqueued 0x11).respond _
  exact ⟨⟨twoSlots, 0x11, twoSlots_inv, _, rfl, true, rfl⟩, ⟨enqDone twoSlots 0x11, 0x22, hfull, _, rfl, rfl⟩⟩

end Sys2Proof.Machine
end

section
/-! The event word and its decoder (spec/30_encoding.md R60 to R64): the fields as numbers, what each operation number
spells, and that decoding and encoding undo each other. -/

namespace Sys2Proof.Machine

variable {e : EventWord} {i j : Instr} {c : Config} {p : Byte} {why : RefusedWord}

/-! The fields (R60) -/

@[simp] theorem opField_eventWord (op : BitVec 4) (p : Byte) : opField (eventWord op p) = op :=
  BitVec.extractLsb'_append_eq_left

@[simp] theorem payloadField_eventWord (op : BitVec 4) (p : Byte) : payloadField (eventWord op p) = p :=
  BitVec.extractLsb'_append_eq_right

theorem eventWord_fields (e : EventWord) : eventWord (opField e) (payloadField e) = e :=
  (BitVec.extractLsb'_append_extractLsb'_eq_extractLsb' rfl).trans BitVec.extractLsb'_eq_self

theorem toNat_opField (e : EventWord) : (opField e).toNat = e.toNat / 256 := by
  have hlt := e.isLt
  rw [opField, BitVec.extractLsb'_toNat, Nat.shiftRight_eq_div_pow]
  omega

theorem payloadField_eq (e : EventWord) : payloadField e = BitVec.ofNat 8 (e.toNat % 256) := by
  apply BitVec.eq_of_toNat_eq
  simp [payloadField]

theorem payloadField_eq_zero_iff (e : EventWord) : payloadField e = 0 ↔ e.toNat % 256 = 0 := by
  rw [payloadField_eq]
  bv_omega

theorem edgeRestField_eq_zero_iff (p : Byte) : edgeRestField p = 0 ↔ p.toNat / 2 = 0 := by
  have hlt := p.isLt
  rw [← BitVec.toNat_inj, edgeRestField, BitVec.extractLsb'_toNat, Nat.shiftRight_eq_div_pow,
    show (0 : BitVec 7).toNat = 0 from rfl]
  omega

theorem levelField_eq (p : Byte) : levelField p = BitVec.ofNat 1 p.toNat := by
  apply BitVec.eq_of_toNat_eq
  simp [levelField]

/-- The payload of `EDGE` is its level when the bits above are 0 (R62). -/
theorem zeroExtend_levelField (h : edgeRestField p = 0) : (levelField p).zeroExtend 8 = p := by
  rw [edgeRestField_eq_zero_iff] at h
  apply BitVec.eq_of_toNat_eq
  rw [levelField_eq, BitVec.toNat_setWidth, BitVec.toNat_ofNat]
  omega

@[simp] theorem levelField_zeroExtend (d : Level) : levelField (d.zeroExtend 8) = d := by
  revert d; decide

@[simp] theorem edgeRestField_zeroExtend (d : Level) : edgeRestField (d.zeroExtend 8) = 0 := by
  revert d; decide

/-- A word is given by its operation number and its payload. -/
theorem eq_eventWord {op : BitVec 4} (h : (opField e).toNat = op.toNat) : e = eventWord op (payloadField e) := by
  rw [← BitVec.eq_of_toNat_eq h, eventWord_fields]

/-! What a word spells, by its operation number (R61, R62) -/

theorem spell_edge (h : (opField e).toNat = 0) :
    spell e = if edgeRestField (payloadField e) = 0 then .ok (.edge (levelField (payloadField e)))
      else .error .edgePayload := by
  simp only [spell, h]

theorem spell_enq (h : (opField e).toNat = 1) : spell e = .ok (.enq (payloadField e)) := by
  simp only [spell, h]

theorem spell_deq (h : (opField e).toNat = 2) : spell e = noOperand (payloadField e) .deq := by
  simp only [spell, h]

theorem spell_isEmpty (h : (opField e).toNat = 3) : spell e = noOperand (payloadField e) .isEmpty := by
  simp only [spell, h]

theorem spell_isFull (h : (opField e).toNat = 4) : spell e = noOperand (payloadField e) .isFull := by
  simp only [spell, h]

theorem spell_reset (h : (opField e).toNat = 5) : spell e = noOperand (payloadField e) .reset := by
  simp only [spell, h]

theorem spell_reserved (h : 6 ≤ (opField e).toNat) : spell e = .error .reservedOp := by
  unfold spell
  split
  case h_7 => rfl
  all_goals omega

/-! Decode and encode -/

@[simp] theorem noOperand_zero (i : Instr) : noOperand 0 i = .ok i := if_pos rfl

/-- A word that spells an event without operand is that event's word. -/
theorem eq_eventWord_of_noOperand {op : BitVec 4} (hop : (opField e).toNat = op.toNat)
    (h : noOperand (payloadField e) j = .ok i) : e = eventWord op 0 ∧ j = i := by
  unfold noOperand at h
  split at h
  · next hp => cases h; exact ⟨hp ▸ eq_eventWord hop, rfl⟩
  · cases h

theorem spell_encode (i : Instr) : spell (encode i) = .ok i := by
  cases i with
  | edge d => rw [encode, spell_edge (by simp)]; simp
  | enq x => rw [encode, spell_enq (by simp), payloadField_eventWord]
  | deq => rw [encode, spell_deq (by simp), payloadField_eventWord, noOperand_zero]
  | isEmpty => rw [encode, spell_isEmpty (by simp), payloadField_eventWord, noOperand_zero]
  | isFull => rw [encode, spell_isFull (by simp), payloadField_eventWord, noOperand_zero]
  | reset => rw [encode, spell_reset (by simp), payloadField_eventWord, noOperand_zero]

theorem eq_encode_of_spell (h : spell e = .ok i) : e = encode i := by
  obtain hop | hop | hop | hop | hop | hop | hop :
      (opField e).toNat = 0 ∨ (opField e).toNat = 1 ∨ (opField e).toNat = 2 ∨ (opField e).toNat = 3 ∨
        (opField e).toNat = 4 ∨ (opField e).toNat = 5 ∨ 6 ≤ (opField e).toNat := by omega
  · rw [spell_edge hop] at h
    split at h
    · next hrest => cases h; rw [encode, zeroExtend_levelField hrest]; exact eq_eventWord hop
    · cases h
  · rw [spell_enq hop] at h; cases h; exact eq_eventWord hop
  · rw [spell_deq hop] at h; obtain ⟨he, rfl⟩ := eq_eventWord_of_noOperand (op := 2) hop h; exact he
  · rw [spell_isEmpty hop] at h; obtain ⟨he, rfl⟩ := eq_eventWord_of_noOperand (op := 3) hop h; exact he
  · rw [spell_isFull hop] at h; obtain ⟨he, rfl⟩ := eq_eventWord_of_noOperand (op := 4) hop h; exact he
  · rw [spell_reset hop] at h; obtain ⟨he, rfl⟩ := eq_eventWord_of_noOperand (op := 5) hop h; exact he
  · rw [spell_reserved hop] at h; cases h

/-- A word spells an event exactly when it is the event's word (R61, R62). -/
theorem spell_eq_ok_iff (e : EventWord) (i : Instr) : spell e = .ok i ↔ e = encode i :=
  ⟨eq_encode_of_spell, fun h => h ▸ spell_encode i⟩

theorem encode_injective : Function.Injective encode := fun i j h =>
  Except.ok.inj ((spell_encode i).symm.trans (h ▸ spell_encode j))

theorem decode_of_spell_error (h : spell e = .error why) : decode c e = .error why := by rw [decode, h]

theorem decode_of_portRefusal_none (h : spell e = .ok i) (hport : portRefusal c.producerPort i = none) :
    decode c e = .ok i := by
  simp only [decode, h, hport]

theorem decode_of_portRefusal_some (h : spell e = .ok i) (hport : portRefusal c.producerPort i = some why) :
    decode c e = .error why := by
  simp only [decode, h, hport]

/-- Decoding keeps the spelled event when the configuration admits it (R63 (d), (e), R64). -/
theorem decode_eq_ok_iff (c : Config) (e : EventWord) (i : Instr) :
    decode c e = .ok i ↔ e = encode i ∧ i.admittedBy c := by
  constructor
  · intro h
    refine ⟨?_, admittedBy_of_decode h⟩
    cases hs : spell e with
    | error why => rw [decode_of_spell_error hs] at h; cases h
    | ok j =>
      rw [(spell_eq_ok_iff e j).mp hs]
      cases hport : portRefusal c.producerPort j with
      | none => rw [decode_of_portRefusal_none hs hport] at h; cases h; rfl
      | some why => rw [decode_of_portRefusal_some hs hport] at h; cases h
  · rintro ⟨rfl, hadm⟩
    exact decode_of_portRefusal_none (spell_encode i) ((portRefusal_eq_none_iff c i).mpr hadm)

/-- Every event word is read back from its number. -/
theorem tableWord_toNat (e : EventWord) : tableWord 16 e.toNat = some e := by
  have hlt := e.isLt
  have hmod : e.toNat % 2 ^ 16 = e.toNat := Nat.mod_eq_of_lt (by omega)
  simp only [tableWord, hmod]
  rw [if_pos hlt, BitVec.ofNat_toNat, BitVec.setWidth_eq]

/-- Settles O3: a word spells an event exactly when it is the event's word (`spell_eq_ok_iff`), and the configuration's
clauses refuse exactly the events that are not admitted. -/
theorem decodeEncodeAgree : Obligations.DecodeEncodeAgree := by
  refine ⟨decode_eq_ok_iff, fun i => ?_⟩
  simp only [decodeTableWord, tableWord_toNat, spell_encode]

end Sys2Proof.Machine
end

section
/-! The event table (spec/30_encoding.md R64): decoding by the numbers of operation and payload, and how many of the 4096
words decode. -/

namespace Sys2Proof.Machine

variable {e : EventWord} {i : Instr} {c : Config}

/-! Decoding by number -/

/-- `EDGE`: the spare payload bits are asked before the port (R64). -/
theorem decode_edge (c : Config) (h : (opField e).toNat = 0) :
    decode c e =
      if e.toNat % 256 / 2 ≠ 0 then .error .edgePayload
      else if c.producerPort = .external then .error .edgeNotSampler
      else .ok (.edge (BitVec.ofNat 1 (e.toNat % 2))) := by
  have hrest : edgeRestField (payloadField e) = 0 ↔ e.toNat % 256 / 2 = 0 := by
    rw [edgeRestField_eq_zero_iff, payloadField_eq, BitVec.toNat_ofNat, Nat.mod_mod]
  have hlevel : levelField (payloadField e) = BitVec.ofNat 1 (e.toNat % 2) := by
    apply BitVec.eq_of_toNat_eq
    simp [levelField_eq, payloadField_eq]
  have hspell := spell_edge h
  rw [hlevel] at hspell
  by_cases hzero : e.toNat % 256 / 2 = 0
  · rw [if_pos (hrest.mpr hzero)] at hspell
    rw [if_neg (not_not.mpr hzero)]
    split
    · next hport => exact decode_of_portRefusal_some hspell (if_pos hport)
    · next hport => exact decode_of_portRefusal_none hspell (if_neg hport)
  · rw [if_neg (mt hrest.mp hzero)] at hspell
    rw [if_pos hzero, decode_of_spell_error hspell]

theorem decode_enq (c : Config) (h : (opField e).toNat = 1) :
    decode c e =
      if c.producerPort = .sampler then .error .enqNotExternal else .ok (.enq (BitVec.ofNat 8 (e.toNat % 256))) := by
  rw [← payloadField_eq]
  split
  · next hport => exact decode_of_portRefusal_some (spell_enq h) (if_pos hport)
  · next hport => exact decode_of_portRefusal_none (spell_enq h) (if_neg hport)

/-- The events without operand, which are admitted on both ports. -/
theorem decode_noOperand (hspell : spell e = noOperand (payloadField e) i)
    (hport : portRefusal c.producerPort i = none) :
    decode c e = if e.toNat % 256 ≠ 0 then .error .payloadNotZero else .ok i := by
  unfold noOperand at hspell
  split at hspell
  · next hp =>
    rw [if_neg (not_not.mpr ((payloadField_eq_zero_iff e).mp hp)), decode_of_portRefusal_none hspell hport]
  · next hp => rw [if_pos (mt (payloadField_eq_zero_iff e).mpr hp), decode_of_spell_error hspell]

/-! Counting words by counting events -/

/-- Every edge. -/
def allEdges : List Instr := [.edge 0, .edge 1]

/-- Every external enqueue. -/
def allEnqs : List Instr := (List.finRange 256).map fun k => .enq (.ofFin k)

/-- Every event without operand. -/
def allPlain : List Instr := [.deq, .isEmpty, .isFull, .reset]

/-- Every event. -/
def allEvents : List Instr := allEdges ++ allEnqs ++ allPlain

theorem mem_allEvents (i : Instr) : i ∈ allEvents := by
  simp only [allEvents, List.mem_append]
  cases i with
  | edge d => exact .inl (.inl (by revert d; decide))
  | enq x => exact .inl (.inr (List.mem_map.mpr ⟨x.toFin, List.mem_finRange _, rfl⟩))
  | deq | isEmpty | isFull | reset => exact .inr (by decide)

theorem nodup_allEnqs : allEnqs.Nodup :=
  (List.nodup_finRange 256).map fun _ _ h => BitVec.ofFin.inj (Instr.enq.inj h)

theorem nodup_allEvents : allEvents.Nodup := by
  refine List.Nodup.append (List.Nodup.append (by decide) nodup_allEnqs ?_) (by decide) ?_
  · simp [List.Disjoint, allEdges, allEnqs]
  · simp [List.Disjoint, allEdges, allEnqs, allPlain]

/-- When a test accepts exactly the words of some events, it accepts as many words as there are such events. -/
theorem countP_words {p : EventWord → Bool} {q : Instr → Bool}
    (h : ∀ e, p e = true ↔ ∃ i, e = encode i ∧ q i = true) :
    ((List.range 4096).countP fun k => p (BitVec.ofNat 12 k)) = allEvents.countP q := by
  have hinj : Function.Injective fun i => (encode i).toNat := fun i j hij =>
    encode_injective (BitVec.eq_of_toNat_eq hij)
  have hperm : ((List.range 4096).filter fun k => p (BitVec.ofNat 12 k)).Perm
      ((allEvents.filter q).map fun i => (encode i).toNat) := by
    refine (List.perm_ext_iff_of_nodup (List.nodup_range.filter _) ((nodup_allEvents.filter _).map hinj)).mpr
      fun k => ?_
    simp only [List.mem_filter, List.mem_range, List.mem_map, h, mem_allEvents, true_and]
    constructor
    · rintro ⟨hk, i, he, hq⟩
      exact ⟨i, hq, by rw [← he, BitVec.toNat_ofNat, Nat.mod_eq_of_lt hk]⟩
    · rintro ⟨i, hq, rfl⟩
      exact ⟨(encode i).isLt, i, by rw [BitVec.ofNat_toNat, BitVec.setWidth_eq], hq⟩
  rw [List.countP_eq_length_filter, hperm.length_eq, List.length_map, List.countP_eq_length_filter]

theorem toBool_eq_true_iff {ε α : Type} (x : Except ε α) : x.toBool = true ↔ ∃ a, x = .ok a := by
  cases x <;> simp [Except.toBool]

/-- Every event has one word that spells it. -/
theorem countP_spell :
    ((List.range 4096).countP fun k => (spell (BitVec.ofNat 12 k)).toBool) = allEvents.length := by
  have hspell : ∀ e, (spell e).toBool = true ↔ ∃ i, e = encode i ∧ true = true := fun e => by
    simp only [toBool_eq_true_iff, spell_eq_ok_iff, and_true]
  exact (countP_words (p := fun e => (spell e).toBool) (q := fun _ => true) hspell).trans
    (congrFun List.countP_true allEvents)

/-- Every admitted event has one word that decodes to it. -/
theorem countP_decode (c : Config) :
    ((List.range 4096).countP fun k => (decode c (BitVec.ofNat 12 k)).toBool) = allEvents.countP (·.admittedBy c) :=
  countP_words (p := fun e => (decode c e).toBool) fun e => by simp only [toBool_eq_true_iff, decode_eq_ok_iff]

theorem length_allEvents : allEvents.length = 262 := by
  simp [allEvents, allEdges, allEnqs, allPlain]

/-- The sampler's port admits the two edges and the four events without operand. -/
theorem countP_admittedBy_sampler (n : Nat) : allEvents.countP (·.admittedBy ⟨n, .sampler⟩) = 6 := by
  simp [allEvents, allEdges, allEnqs, allPlain, List.countP_map, Function.comp_def, Instr.admittedBy]

/-- The external port admits the 256 enqueues and the four events without operand. -/
theorem countP_admittedBy_external (n : Nat) : allEvents.countP (·.admittedBy ⟨n, .external⟩) = 260 := by
  simp [allEvents, allEdges, allEnqs, allPlain, List.countP_map, Function.comp_def, Instr.admittedBy]

/-- Settles O2: each operation number has its case of the decoder, and each event that is spelled or admitted has
exactly one word, so the words are counted by counting events (`countP_words`). -/
theorem decodeFollowsEventTable : Obligations.DecodeFollowsEventTable := by
  refine ⟨fun c e => ?_, countP_spell.trans length_allEvents, fun n => ?_, fun n => ?_⟩
  · simp only [← toNat_opField]
    exact ⟨decode_edge c, decode_enq c, fun h => decode_noOperand (spell_deq h) rfl,
      fun h => decode_noOperand (spell_isEmpty h) rfl, fun h => decode_noOperand (spell_isFull h) rfl,
      fun h => decode_noOperand (spell_reset h) rfl, fun h => decode_of_spell_error (spell_reserved h)⟩
  · exact (countP_decode _).trans (countP_admittedBy_sampler n)
  · exact (countP_decode _).trans (countP_admittedBy_external n)

end Sys2Proof.Machine
end

section
/-! Refusals (spec/30_encoding.md R63, spec/60_exceptions.md R134): what is refused, and what a refusal leaves alone. -/

namespace Sys2Proof.Machine

variable {s : State} {i : Instr} {a : Agent} {e : EventWord} {ρ : Run}

/-! What is refused -/

/-- With at least two slots an event is refused by its clause of R63. -/
theorem whenAdmitted_of_portRefusal {k : Host.Outcome State Fault Refusal} {why : RefusedWord} (hn : 2 ≤ s.cfg.n)
    (hport : portRefusal s.cfg.producerPort i = some why) : whenAdmitted i s k = .refused (.word why) := by
  rw [whenAdmitted, if_neg (Nat.not_lt.mpr hn), hport]

theorem whenAdmitted_of_small {k : Host.Outcome State Fault Refusal} (hn : s.cfg.n < 2) :
    whenAdmitted i s k = .refused .capacityBelowTwo :=
  if_pos hn

/-- Every event asks first whether it is admitted. -/
theorem exec_eq_whenAdmitted (i : Instr) (s : State) : ∃ k, exec i s = whenAdmitted i s k := by
  cases i <;> exact ⟨_, rfl⟩

/-- Settles O34: every event runs under `whenAdmitted`, which asks for the capacity and then for the port. -/
theorem unadmittedEventsAreRefused : Obligations.UnadmittedEventsAreRefused := by
  refine ⟨fun d s hn hport => ?_, fun x s hn hport => ?_, fun i s hn => ?_⟩
  · exact whenAdmitted_of_portRefusal hn (if_pos hport)
  · exact whenAdmitted_of_portRefusal hn (if_pos hport)
  · obtain ⟨k, hk⟩ := exec_eq_whenAdmitted i s
    rw [hk, whenAdmitted_of_small hn]

/-! A refused word in a run -/

theorem step_of_decode_error {why : RefusedWord} (hn : nextEvent s = some (a, e)) (hd : decode s.cfg e = .error why) :
    step s = .refused (.word why) := by
  simp only [step, hn, readEvent, hd]

theorem advance_of_step_refused {why : Refusal} (hf : ρ.fault = none) (h : step ρ.state = .refused why) :
    ρ.advance = { ρ with state := skipEvent ρ.state, refusalMark := ρ.refusalMark.or (some why) } := by
  simp only [Run.advance, hf, h]

/-- Settles O35: the step refuses the word, the run passes over it and sets its mark, and the laws of `consumeEvent`
say field by field what passing over an event leaves alone. -/
theorem refusedWordOnlyMarksTheRun : Obligations.RefusedWordOnlyMarksTheRun := by
  intro ρ a rest e es why hf hsched hpend hdec
  have hnext : nextEvent ρ.state = some (a, e) := nextEvent_of hsched hpend
  have hstep := step_of_decode_error hnext hdec
  rw [advance_of_step_refused hf hstep, skipEvent_of_some hnext]
  refine ⟨hstep, rfl, hf, ?_, ?_, fun b hb => ?_, consumeEvent_cfg _ a, consumeEvent_bitCount _ a, consumeEvent_acc _ a,
    consumeEvent_slots _ a, consumeEvent_r _ a, consumeEvent_w _ a, consumeEvent_issuer _ a, consumeEvent_responses _ a⟩
  · rw [consumeEvent_schedule, hsched, List.tail_cons]
  · rw [consumeEvent, pendingAt_setPending, hpend, List.tail_cons]
  · rw [consumeEvent, pendingAt_setPending_ne _ _ hb, pendingAt_passTurn]

end Sys2Proof.Machine
end

section
/-! Settled obligations of the encoding (spec/30_encoding.md R61 to R66): sample words, responses and placed words. -/

namespace Sys2Proof.Machine

/-- Settles O1: thirteen closed words, decoded one by one. -/
theorem sampleWordsDecode : Obligations.SampleWordsDecode := by
  unfold Obligations.SampleWordsDecode
  decide

/-- Settles O41: the step runs the event, which answers as the abstract block does (`step_answers`). -/
theorem everyEventAnswersItsIssuer : Obligations.EveryEventAnswersItsIssuer :=
  fun _ _ _ _ => step_answers

theorem admittedBy_configuredFor (i : Instr) (c : Config) : i.admittedBy (configuredFor i c) := by
  cases i <;> rfl

/-- Every event may be issued by its agent in a configuration made for it. -/
theorem mayIssue_agentOf (i : Instr) (c : Config) : mayIssue (configuredFor i c) (agentOf i) i = true := by
  cases i <;> rfl

theorem nextEvent_issueNext (a : Agent) (e : EventWord) (s : State) : nextEvent (issueNext a e s) = some (a, e) :=
  nextEvent_of (rest := s.schedule) (setPending_schedule _ _ _) (pendingAt_setPending _ _ _)

/-- The word of an event, placed, is issued next by the event's agent, in the configuration it needs. -/
theorem withFetchWord_encode (i : Instr) (s : State) :
    s.withFetchWord 16 (encode i).toNat =
      issueNext (agentOf i) (encode i) { s with cfg := configuredFor i s.cfg } := by
  simp only [State.withFetchWord, tableWord_toNat, placeWord, spell_encode]

/-- Settles O39: the placed word is the next event, it decodes to its event in the configuration made for it, and taking
it leaves only its agent as the issuer. -/
theorem placedWordRunsNext : Obligations.PlacedWordRunsNext := by
  intro i s
  have hcfg : (issueNext (agentOf i) (encode i) { s with cfg := configuredFor i s.cfg }).cfg = configuredFor i s.cfg :=
    setPending_cfg _ _ _
  have hdec := (decode_eq_ok_iff _ _ i).mpr ⟨rfl, admittedBy_configuredFor i s.cfg⟩
  have hmay := mayIssue_agentOf i s.cfg
  rw [← hcfg] at hdec hmay
  rw [withFetchWord_encode, step_event (nextEvent_issueNext _ _ _) hdec hmay, takeEvent_issueNext]

end Sys2Proof.Machine
end

section
/-! A whole frame (spec/40_sampler.md R81 to R85, R89; spec/30_encoding.md R65): the state its edges leave, and the byte
that `FRAME` delivers. -/

namespace Sys2Proof.Machine

variable {s : State} {d : Level} {ds : List Level}

/-! The edges before the last -/

/-- The state after an edge that completes no frame. -/
def midFrame (s : State) (d : Level) : State := respond noFrame (setSampler (s.bitCount + 1) (accAfter s d) s)

@[simp] theorem midFrame_cfg (s : State) (d : Level) : (midFrame s d).cfg = s.cfg := rfl
@[simp] theorem midFrame_bitCount (s : State) (d : Level) : (midFrame s d).bitCount = s.bitCount + 1 := rfl
@[simp] theorem midFrame_acc (s : State) (d : Level) : (midFrame s d).acc = accAfter s d := rfl
@[simp] theorem midFrame_slots (s : State) (d : Level) : (midFrame s d).slots = s.slots := rfl
@[simp] theorem midFrame_r (s : State) (d : Level) : (midFrame s d).r = s.r := rfl
@[simp] theorem midFrame_w (s : State) (d : Level) : (midFrame s d).w = s.w := rfl
@[simp] theorem midFrame_issuer (s : State) (d : Level) : (midFrame s d).issuer = s.issuer := rfl
@[simp] theorem midFrame_responses (s : State) (d : Level) :
    (midFrame s d).responses = s.responses ++ [(s.issuer, noFrame)] := rfl

theorem toNat_bitCount_midFrame (d : Level) (hb : s.bitCount.toNat < 10) :
    (midFrame s d).bitCount.toNat = s.bitCount.toNat + 1 :=
  toNat_bitCount_succ hb

/-- The state after edges that complete no frame. -/
def midFrames (s : State) (ds : List Level) : State := ds.foldl midFrame s

theorem midFrames_cons (s : State) (d : Level) (ds : List Level) :
    midFrames s (d :: ds) = midFrames (midFrame s d) ds := rfl

theorem midFrames_concat (s : State) (ds : List Level) (d : Level) :
    midFrames s (ds ++ [d]) = midFrame (midFrames s ds) d :=
  List.foldl_concat ..

/-! Edges that complete no frame write the sampler and the responses alone (R92 (f)). -/

/-- What no such edge changes, none of them changes. -/
theorem midFrames_eq_of_midFrame_eq {α : Type} (f : State → α) (h : ∀ s d, f (midFrame s d) = f s) (s : State)
    (ds : List Level) : f (midFrames s ds) = f s := by
  induction ds generalizing s with
  | nil => rfl
  | cons d ds ih => exact (ih (midFrame s d)).trans (h s d)

@[simp] theorem midFrames_cfg (s : State) (ds : List Level) : (midFrames s ds).cfg = s.cfg :=
  midFrames_eq_of_midFrame_eq State.cfg midFrame_cfg s ds
@[simp] theorem midFrames_slots (s : State) (ds : List Level) : (midFrames s ds).slots = s.slots :=
  midFrames_eq_of_midFrame_eq State.slots midFrame_slots s ds
@[simp] theorem midFrames_r (s : State) (ds : List Level) : (midFrames s ds).r = s.r :=
  midFrames_eq_of_midFrame_eq State.r midFrame_r s ds
@[simp] theorem midFrames_w (s : State) (ds : List Level) : (midFrames s ds).w = s.w :=
  midFrames_eq_of_midFrame_eq State.w midFrame_w s ds
@[simp] theorem midFrames_issuer (s : State) (ds : List Level) : (midFrames s ds).issuer = s.issuer :=
  midFrames_eq_of_midFrame_eq State.issuer midFrame_issuer s ds

@[simp] theorem midFrames_responses (s : State) (ds : List Level) :
    (midFrames s ds).responses = s.responses ++ List.replicate ds.length (s.issuer, noFrame) := by
  induction ds generalizing s with
  | nil => exact (List.append_nil _).symm
  | cons d ds ih =>
    rw [midFrames_cons, ih, midFrame_responses, midFrame_issuer, List.length_cons, List.replicate_succ,
      List.append_assoc, List.singleton_append]

/-- Edges count up to the last position of the frame. -/
theorem toNat_bitCount_midFrames (h : s.bitCount.toNat + ds.length ≤ 10) :
    (midFrames s ds).bitCount.toNat = s.bitCount.toNat + ds.length := by
  induction ds generalizing s with
  | nil => rfl
  | cons d ds ih =>
    rw [List.length_cons] at h ⊢
    have hbit := toNat_bitCount_midFrame d (s := s) (by omega)
    rw [midFrames_cons, ih (by omega), hbit]
    omega

/-- Edges up to the last position of a frame complete. -/
theorem execAll_midFrames (hwf : (Instr.edge d).wf s.cfg) (h : s.bitCount.toNat + ds.length ≤ 10) :
    execAll (ds.map .edge) s = .next (midFrames s ds) := by
  induction ds generalizing s with
  | nil => rfl
  | cons d' ds ih =>
    rw [List.length_cons] at h
    have hbit := toNat_bitCount_midFrame d' (s := s) (by omega)
    have hedge : exec (.edge d') s = .next (midFrame s d') := execEdge_midFrame hwf (by omega)
    rw [List.map_cons, execAll, hedge]
    exact ih hwf (by omega)

/-! The accumulator -/

/-- The accumulator after levels shifted in one after the other. -/
def shiftInAll (ds : List Level) (a : Byte) : Byte := ds.foldl (fun a d => shiftIn d a) a

theorem shiftInAll_cons (d : Level) (ds : List Level) (a : Byte) :
    shiftInAll (d :: ds) a = shiftInAll ds (shiftIn d a) := rfl

/-- Outside the DATA phase an edge keeps the accumulator (R81, R83). -/
theorem accAfter_of_not_data (h : s.bitCount.toNat = 0 ∨ 8 < s.bitCount.toNat) : accAfter s d = s.acc :=
  if_neg (by omega)

/-- Through the DATA phase every edge shifts its level in (R82). -/
theorem acc_midFrames_data (hfirst : 1 ≤ s.bitCount.toNat) (hlast : s.bitCount.toNat + ds.length ≤ 9) :
    (midFrames s ds).acc = shiftInAll ds s.acc := by
  induction ds generalizing s with
  | nil => rfl
  | cons d ds ih =>
    rw [List.length_cons] at hlast
    have hbit := toNat_bitCount_midFrame d (s := s) (by omega)
    have hacc : (midFrame s d).acc = shiftIn d s.acc := if_pos (by omega)
    rw [midFrames_cons, ih (by omega) (by omega), hacc, shiftInAll_cons]

theorem getLsbD_shiftIn_last (d : Level) (a : Byte) : (shiftIn d a).getLsbD 7 = d.getLsbD 0 := by
  simp [shiftIn]

theorem getLsbD_shiftIn_of_lt (d : Level) (a : Byte) {j : Nat} (hj : j < 7) :
    (shiftIn d a).getLsbD j = a.getLsbD (j + 1) := by
  simp [shiftIn, hj, Nat.add_comm]

/-- The old bits come down one place for each level. -/
theorem getLsbD_shiftInAll_old (a : Byte) {j : Nat} (hj : j + ds.length < 8) :
    (shiftInAll ds a).getLsbD j = a.getLsbD (j + ds.length) := by
  induction ds generalizing a with
  | nil => rfl
  | cons d ds ih =>
    rw [List.length_cons] at hj ⊢
    rw [shiftInAll_cons, ih _ (by omega), getLsbD_shiftIn_of_lt d a (by omega), Nat.add_assoc]

/-- The levels stand below bit 8, in their order. -/
theorem getLsbD_shiftInAll_new (a : Byte) (hlen : ds.length ≤ 8) {k : Nat} (hk : ds[k]? = some d) :
    (shiftInAll ds a).getLsbD (8 - ds.length + k) = d.getLsbD 0 := by
  induction ds generalizing a k with
  | nil => simp at hk
  | cons d' ds ih =>
    rw [List.length_cons] at hlen ⊢
    rw [shiftInAll_cons]
    cases k with
    | zero =>
      cases hk
      rw [getLsbD_shiftInAll_old _ (by omega), ← getLsbD_shiftIn_last d a]
      congr 1
      omega
    | succ k =>
      rw [← ih (shiftIn d' a) (by omega) (k := k) hk]
      congr 1
      omega

/-- After eight levels each bit is the level at its place, and nothing of the old accumulator is left (R89). -/
theorem getLsbD_shiftInAll (a : Byte) (hlen : ds.length = 8) {j : Nat} (hj : ds[j]? = some d) :
    (shiftInAll ds a).getLsbD j = d.getLsbD 0 := by
  simpa [hlen] using getLsbD_shiftInAll_new a hlen.le hj

/-! The frame -/

/-- The accumulator at the end of a frame holds its data levels (R81 to R83). -/
theorem acc_midFrames_frame {start parity : Level} (hb : s.bitCount = 0) (hlen : ds.length = 8) :
    (midFrames s (start :: (ds ++ [parity]))).acc = shiftInAll ds s.acc := by
  have hstart : (midFrame s start).acc = s.acc := accAfter_of_not_data (.inl (by simp [hb]))
  have hone : (midFrame s start).bitCount.toNat = 1 := by simp [hb]
  have hnine : (midFrames (midFrame s start) ds).bitCount.toNat = 9 := by
    rw [toNat_bitCount_midFrames (by omega), hone, hlen]
  rw [midFrames_cons, midFrames_concat, midFrame_acc, accAfter_of_not_data (.inr (by omega)),
    acc_midFrames_data (by omega) (by omega), hstart]

/-- The eleven edges of a frame that starts at position 0 complete, the last of them with the frame. -/
theorem execAll_frame {start parity stop : Level} (hwf : (Instr.edge d).wf s.cfg) (hb : s.bitCount = 0)
    (hw : s.w < s.cfg.n) (hlen : ds.length = 8) :
    execAll (.edge start :: (ds.map .edge ++ [.edge parity, .edge stop])) s =
      .next (frameDone (midFrames s (start :: (ds ++ [parity])))) := by
  have hzero : s.bitCount.toNat = 0 := by simp [hb]
  have hten : s.bitCount.toNat + (start :: (ds ++ [parity])).length = 10 := by simp [hzero, hlen]
  have hsplit : Instr.edge start :: (ds.map .edge ++ [.edge parity, .edge stop]) =
      (start :: (ds ++ [parity])).map .edge ++ [.edge stop] := by simp
  have hlast : exec (.edge stop) (midFrames s (start :: (ds ++ [parity]))) = .next _ :=
    execEdge_frameDone (by rwa [midFrames_cfg]) ((toNat_bitCount_midFrames hten.le).trans hten)
      (by rwa [midFrames_cfg, midFrames_w])
  rw [hsplit, execAll_append, execAll_midFrames hwf hten.le]
  simp only [execAll, hlast]

/-! The script -/

theorem dataBit_eq (b : Byte) (j : Nat) : dataBit b j = BitVec.ofBool (b.getLsbD j) := by
  apply BitVec.eq_of_getLsbD_eq
  intro k hk
  obtain rfl : k = 0 := by omega
  simp [dataBit]

/-- The data levels of a byte (R65). -/
def dataLevels (b : Byte) : List Level := (List.range dataBits).map (dataBit b)

@[simp] theorem length_dataLevels (b : Byte) : (dataLevels b).length = 8 := by simp [dataLevels]

theorem getElem?_dataLevels (b : Byte) {j : Nat} (hj : j < 8) :
    (dataLevels b)[j]? = some (BitVec.ofBool (b.getLsbD j)) := by
  simp [dataLevels, hj, dataBit_eq]

theorem expand_frame (b : Byte) (parity stop start : Level) :
    expand (.frame b parity stop start) =
      .edge start :: ((dataLevels b).map .edge ++ [.edge parity, .edge stop]) := by
  rw [expand, frameEdges, dataLevels, List.map_map]
  rfl

/-- The data levels of a byte, shifted in, are the byte. -/
theorem shiftInAll_dataLevels (a b : Byte) : shiftInAll (dataLevels b) a = b := by
  apply BitVec.eq_of_getLsbD_eq
  intro j hj
  rw [getLsbD_shiftInAll a (length_dataLevels b) (getElem?_dataLevels b hj)]
  simp

/-- Settles O53: the edges before the last shift the byte's levels in (`acc_midFrames_frame`), which gives
the byte (`shiftInAll_dataLevels`), and the last edge stores it. -/
theorem frameScriptDeliversItsByte : Obligations.FrameScriptDeliversItsByte := by
  refine ⟨fun b parity stop start => ?_, fun b parity stop start s hwf hb hw => ?_, fun k => rfl⟩
  · exact ⟨dataLevels b, expand_frame b parity stop start, length_dataLevels b, fun j => getElem?_dataLevels b⟩
  · have hacc := acc_midFrames_frame (start := start) (parity := parity) hb (length_dataLevels b)
    rw [shiftInAll_dataLevels] at hacc
    rw [expand_frame]
    refine ⟨_, execAll_frame hwf hb hw (length_dataLevels b), rfl, ?_, ?_⟩
    · simp [frameDone, hacc]
    · simp [frameDone]

end Sys2Proof.Machine
end

section
/-! Single edges (spec/40_sampler.md R81 to R85, R88): what an edge leaves at each position of the frame, and the
events that leave the sampler or the queue alone. -/

namespace Sys2Proof.Machine

variable {s t : State} {i : Instr} {d : Level}

/-! The level outside the DATA phase -/

/-- Only positions 1 to 8 are in the DATA phase (R84). -/
theorem phaseOf_ne_data {b : BitCount} (h : b.toNat = 0 ∨ 8 < b.toNat) : phaseOf b ≠ some .data := by
  unfold phaseOf
  split_ifs with h0 h8
  · nofun
  · omega
  all_goals nofun

/-- Outside the DATA phase no outcome of an edge, not even a stop, depends on the level (R81, R83). -/
theorem exec_edge_level (d d' : Level) (h : s.bitCount.toNat = 0 ∨ 8 < s.bitCount.toNat) :
    exec (.edge d) s = exec (.edge d') s := by
  have hadmit : whenAdmitted (.edge d) s = whenAdmitted (.edge d') s := rfl
  simp only [exec, execEdge, hadmit]
  cases hp : phaseOf s.bitCount with
  | none => rfl
  | some p =>
    cases p with
    | data => exact absurd hp (phaseOf_ne_data h)
    | start | parity | stop => rfl

/-! Edges within a frame -/

theorem exec_edge_midFrame (h : (Instr.edge d).wf s.cfg) (hb : s.bitCount.toNat < 10) :
    exec (.edge d) s = .next (midFrame s d) := execEdge_midFrame h hb

theorem exec_edge_frameDone (h : (Instr.edge d).wf s.cfg) (hb : s.bitCount = 10) (hw : s.w < s.cfg.n) :
    exec (.edge d) s = .next (frameDone s) := execEdge_frameDone h (by rw [hb]; rfl) hw

/-- In the START and PARITY phases an edge counts and answers, and nothing else (R81, R83). -/
theorem midFrame_of_not_data (h : s.bitCount.toNat = 0 ∨ 8 < s.bitCount.toNat) :
    midFrame s d = respond noFrame (setSampler (s.bitCount + 1) s.acc s) := by
  rw [midFrame, accAfter_of_not_data h]

/-- Settles O4: an edge at position 0 counts and answers, and nothing else (`midFrame_of_not_data`). -/
theorem edgeStartDiscardsLevel : Obligations.EdgeStartDiscardsLevel := by
  intro d s hwf hb
  rw [exec_edge_midFrame hwf (by simp [hb]), midFrame_of_not_data (by simp [hb]), hb]
  rfl

/-- Settles O5: one DATA edge is one `shiftIn`, and eight of them replace the accumulator (`getLsbD_shiftInAll`). -/
theorem edgeDataShiftsLevelIn : Obligations.EdgeDataShiftsLevelIn := by
  refine ⟨fun d s hwf hfirst hlast => ?_, fun level s hwf hb => ?_⟩
  · have hacc : accAfter s d = shiftIn d s.acc := if_pos ⟨hfirst, hlast⟩
    refine ⟨_, exec_edge_midFrame hwf (by omega), ?_, ?_, fun j hj => ?_⟩
    · rw [midFrame, hacc]; rfl
    · rw [midFrame_acc, hacc, getLsbD_shiftIn_last]
    · rw [midFrame_acc, hacc, getLsbD_shiftIn_of_lt d s.acc hj]
  · have hone : s.bitCount.toNat = 1 := by simp [hb]
    have hlen : ((List.range 8).map fun j => level (j + 1)).length = 8 := by simp
    have hrun := execAll_midFrames (ds := (List.range 8).map fun j => level (j + 1)) hwf (by omega)
    rw [List.map_map] at hrun
    refine ⟨_, hrun, BitVec.eq_of_toNat_eq ?_, fun j hj => ?_⟩
    · rw [toNat_bitCount_midFrames (by omega), hone, hlen]; rfl
    · rw [acc_midFrames_data (by omega) (by omega)]
      exact getLsbD_shiftInAll s.acc hlen (by simp [hj])

/-- Settles O6: the level has no part in the outcome there (`exec_edge_level`), and the completing edge stores `acc`. -/
theorem edgeParityAndStopIgnoreLevel : Obligations.EdgeParityAndStopIgnoreLevel := by
  refine ⟨fun d s hwf hb => ?_, fun d d' s hwf hb hw => ⟨exec_edge_level d d' (by simp [hb]), ?_⟩⟩
  · rw [exec_edge_midFrame hwf (by simp [hb]), midFrame_of_not_data (by simp [hb]), hb]
    rfl
  · exact ⟨_, _, _, _, exec_edge_frameDone hwf hb hw, rfl, slotRead_slotWrite_self .., rfl⟩

/-- An edge that completes counts one modulo 11 (R86). -/
theorem position_of_edge (h : exec (.edge d) s = .next t) : t.bitCount.toNat = (s.bitCount.toNat + 1) % 11 := by
  obtain ⟨-, ⟨hb, rfl⟩ | ⟨hb, -, rfl⟩⟩ := execEdge_next h
  · exact (toNat_bitCount_succ hb).trans (by omega)
  · rw [hb]; rfl

/-- No edge stores a position above 10 (R85). -/
theorem position_le_of_edge (h : exec (.edge d) s = .next t) : t.bitCount.toNat ≤ 10 := by
  have hpos := position_of_edge h
  omega

/-- Settles O7: the state is `frameDone`, with its flags written out. -/
theorem edgeCompletesFrame : Obligations.EdgeCompletesFrame :=
  ⟨fun _ _ hwf hb hw => exec_edge_frameDone hwf hb hw, fun _ _ _ => position_le_of_edge⟩

/-- A full queue accepts no byte and wakes nobody (R100, R104). -/
theorem acceptedFlag_of_full (h : fullFlag s = true) : acceptedFlag (incN s.cfg.n s.w) s.r = false := by
  simpa [fullFlag, acceptedFlag] using h

/-- Settles O16: the completing edge is the same on every queue, and a full one gives `accepted = false`. -/
theorem edgeNeverBlocksOnFullQueue : Obligations.EdgeNeverBlocksOnFullQueue := by
  intro d s hs hwf hb hfull
  refine ⟨_, exec_edge_frameDone hwf hb hs.writeIndex, rfl, rfl, slotRead_slotWrite_self .., ?_⟩
  simp [frameDone, acceptedFlag_of_full hfull, wakeFlag, condOf]

/-! The other events -/

/-- The status reads and an empty `DEQ` answer and do nothing else (R101 to R103). -/
theorem exists_respond_of_read (hi : i = .isEmpty ∨ i = .isFull ∨ (i = .deq ∧ s.r = s.w)) (h : exec i s = .next t) :
    ∃ q, t = respond q s := by
  rcases hi with rfl | rfl | ⟨rfl, hempty⟩
  · exact ⟨_, (execIsEmpty_next h).2⟩
  · exact ⟨_, (execIsFull_next h).2⟩
  · obtain ⟨-, ⟨-, ht⟩ | ⟨hne, -⟩⟩ := execDeq_next h
    · exact ⟨_, ht⟩
    · exact absurd hempty hne

/-- Settles O48: no event touches the ports (`ports_of_exec_next`), and each leaves the state its law in Laws/Exec
names. -/
theorem otherEventsFrame : Obligations.OtherEventsFrame := by
  refine ⟨fun d s t h hb => ?_, fun i s t hi h => ?_, fun s t h hne => ?_, fun s t h => ?_⟩ <;>
    obtain ⟨hcfg, hissuer⟩ := cfg_issuer_of_exec_next h <;>
    obtain ⟨hschedule, hpending⟩ := ports_of_exec_next h
  · obtain ⟨-, ⟨-, rfl⟩ | ⟨hten, -⟩⟩ := execEdge_next h
    · exact ⟨hcfg, rfl, rfl, hissuer, hschedule, hpending, fun _ => rfl⟩
    · exact absurd (BitVec.eq_of_toNat_eq hten) hb
  · obtain ⟨q, rfl⟩ := exists_respond_of_read hi h
    exact ⟨hcfg, rfl, rfl, rfl, rfl, hissuer, hschedule, hpending, fun _ => rfl⟩
  · obtain ⟨-, ⟨heq, -⟩ | ⟨-, -, v, -, rfl⟩⟩ := execDeq_next h
    · exact absurd heq hne
    · exact ⟨hcfg, rfl, rfl, rfl, hissuer, hschedule, hpending, fun a ha => slotRead_slotClear_ne _ ha⟩
  · exact ⟨hcfg, hissuer, hschedule, hpending⟩

end Sys2Proof.Machine
end

section
/-! The position along many events (spec/40_sampler.md R86, R91, R93): edges count modulo 11, and nothing else but
`RESET` moves the position. -/

namespace Sys2Proof.Machine

variable {s t : State} {i : Instr} {is js : List Instr}

/-- Every event but `RESET` counts its edge and the frame it answers with (R86). -/
theorem exec_counts (hreset : i ≠ .reset) (h : exec i s = .next t) :
    ∃ q, t.responses = s.responses ++ [(s.issuer, q)] ∧
      s.bitCount.toNat + (if isEdge i then 1 else 0) = 11 * (if q.isFrame then 1 else 0) + t.bitCount.toNat := by
  cases i with
  | edge d =>
    obtain ⟨-, ⟨hb, rfl⟩ | ⟨hb, -, rfl⟩⟩ := execEdge_next h
    · exact ⟨_, rfl, (toNat_bitCount_midFrame d hb).symm.trans (Nat.zero_add _).symm⟩
    · exact ⟨_, rfl, congrArg (· + 1) hb⟩
  | enq x => obtain ⟨-, -, rfl⟩ := execEnq_next h; exact ⟨_, rfl, (Nat.zero_add _).symm⟩
  | deq => obtain ⟨-, ⟨-, rfl⟩ | ⟨-, -, v, -, rfl⟩⟩ := execDeq_next h <;> exact ⟨_, rfl, (Nat.zero_add _).symm⟩
  | isEmpty => obtain ⟨-, rfl⟩ := execIsEmpty_next h; exact ⟨_, rfl, (Nat.zero_add _).symm⟩
  | isFull => obtain ⟨-, rfl⟩ := execIsFull_next h; exact ⟨_, rfl, (Nat.zero_add _).symm⟩
  | reset => exact absurd rfl hreset

/-- R86 from any position: the edges go into the completed frames and into the position. -/
theorem execAll_counts (hreset : Instr.reset ∉ is) (h : execAll is s = .next t) :
    ∃ rs, t.responses = s.responses ++ rs ∧
      s.bitCount.toNat + is.countP isEdge = 11 * rs.countP (fun p => p.2.isFrame) + t.bitCount.toNat := by
  induction is generalizing s with
  | nil =>
    cases h
    exact ⟨[], (List.append_nil _).symm, by simp⟩
  | cons i is ih =>
    obtain ⟨hi, his⟩ := List.ne_and_not_mem_of_not_mem_cons hreset
    obtain ⟨u, hu, ht⟩ := execAll_cons h
    obtain ⟨q, hq, hone⟩ := exec_counts (Ne.symm hi) hu
    obtain ⟨rs, hrs, hrest⟩ := ih his ht
    refine ⟨(s.issuer, q) :: rs, by simp [hrs, hq], ?_⟩
    simp only [List.countP_cons]
    omega

/-- No event brings the position above 10 (R85, 10_state.md R21). -/
theorem position_le_of_exec (hs : s.bitCount.toNat ≤ 10) (h : exec i s = .next t) : t.bitCount.toNat ≤ 10 := by
  cases i with
  | edge d => exact position_le_of_edge h
  | enq | deq | isEmpty | isFull => rwa [(sampler_of_exec_next h nofun nofun).1]
  | reset => obtain ⟨-, rfl⟩ := execReset_next h; exact Nat.zero_le 10

theorem position_le_of_execAll (hs : s.bitCount.toNat ≤ 10) (h : execAll is s = .next t) :
    t.bitCount.toNat ≤ 10 := by
  induction is generalizing s with
  | nil => cases h; exact hs
  | cons i is ih =>
    obtain ⟨u, hu, ht⟩ := execAll_cons h
    exact ih (position_le_of_exec hs hu) ht

/-- Without a `RESET` the position is the number of edges modulo 11, from where it was. -/
theorem position_of_execAll (hs : s.bitCount.toNat ≤ 10) (hreset : Instr.reset ∉ is) (h : execAll is s = .next t) :
    t.bitCount.toNat = (s.bitCount.toNat + is.countP isEdge) % 11 := by
  obtain ⟨rs, -, hcount⟩ := execAll_counts hreset h
  have hle := position_le_of_execAll hs h
  omega

/-- Settles O8: one edge counts one (`position_of_edge`), and the count along a list is `execAll_counts`. -/
theorem edgesCountModuloEleven : Obligations.EdgesCountModuloEleven := by
  refine ⟨fun d s t => position_of_edge, fun is s t hb hreset h => ?_⟩
  obtain ⟨rs, hrs, hcount⟩ := execAll_counts hreset h
  rw [newResponses_of_append hrs, ← hcount, hb]
  exact (Nat.zero_add _).symm

/-- Settles O9: `11k` edges leave the position as it was modulo 11 (`position_of_execAll`), and it is below 11. -/
theorem samplerNeverResynchronizes : Obligations.SamplerNeverResynchronizes := by
  intro is s t k hb hreset hedges h
  have hpos := position_of_execAll hb hreset h
  exact BitVec.eq_of_toNat_eq (by omega)

/-! Corrupted frames -/

theorem countP_isEdge_map_edge (ds : List Level) : (ds.map Instr.edge).countP isEdge = ds.length := by
  rw [List.countP_map]
  exact List.countP_eq_length.mpr fun _ _ => rfl

theorem reset_notMem_map_edge (ds : List Level) : Instr.reset ∉ ds.map .edge := by simp

/-- Lists of events are alike when their first events are and the rest is alike from the state these leave. -/
theorem execAll_cons_congr {i' : Instr} (hfirst : exec i s = exec i' s)
    (hrest : ∀ u, exec i s = .next u → execAll is u = execAll js u) : execAll (i :: is) s = execAll (i' :: js) s := by
  rw [execAll, execAll, ← hfirst]
  cases hu : exec i s with
  | next u => exact hrest u hu
  | fault f => rfl
  | refused why => rfl

theorem execAll_append_congr (ks : List Instr) (h : ∀ u, execAll ks s = .next u → execAll is u = execAll js u) :
    execAll (ks ++ is) s = execAll (ks ++ js) s := by
  rw [execAll_append, execAll_append]
  cases hu : execAll ks s with
  | next u => exact h u hu
  | fault f => rfl
  | refused why => rfl

/-- The levels of the last two edges of a frame have no part in the outcome (R83). -/
theorem execAll_parity_stop (parity parity' stop stop' : Level) (hb : s.bitCount.toNat = 9) :
    execAll [.edge parity, .edge stop] s = execAll [.edge parity', .edge stop'] s := by
  refine execAll_cons_congr (exec_edge_level parity parity' (by omega)) fun u hu => ?_
  have hten := position_of_edge hu
  exact execAll_cons_congr (exec_edge_level stop stop' (by omega)) fun _ _ => rfl

/-- Settles O13: at START, PARITY and STOP, which is where edges bring the position (`position_of_execAll`), the
outcome does not depend on the level (`exec_edge_level`). -/
theorem frameCorruptionIsUnobservable : Obligations.FrameCorruptionIsUnobservable := by
  intro start start' parity parity' stop stop' data s hb hlen
  have hzero : s.bitCount.toNat = 0 := by simp [hb]
  refine execAll_cons_congr (exec_edge_level start start' (.inl hzero)) fun u hu => ?_
  have hone := position_of_edge hu
  refine execAll_append_congr _ fun v hv => ?_
  have hnine := position_of_execAll (by omega) (reset_notMem_map_edge data) hv
  rw [countP_isEdge_map_edge, hlen, hone, hzero] at hnine
  exact execAll_parity_stop parity parity' stop stop' hnine

end Sys2Proof.Machine
end

section
/-! The bytes of whole frames (spec/40_sampler.md R89, R90): the accumulator at the end of a frame is the packing of its
data levels, and frames that follow one another enqueue one such byte each. -/

namespace Sys2Proof.Machine

variable {s t : State} {ds : List Level} {d start parity stop : Level}

/-! The packing -/

/-- Each bit of the packing is the level at its place (R89). -/
theorem getLsbD_packLevels (d1 d2 d3 d4 d5 d6 d7 d8 : Level) {j : Nat}
    (hj : [d1, d2, d3, d4, d5, d6, d7, d8][j]? = some d) :
    (packLevels d1 d2 d3 d4 d5 d6 d7 d8).getLsbD j = d.getLsbD 0 := by
  have hlt : j < 8 := (List.getElem?_eq_some_iff.mp hj).1
  interval_cases j <;> cases hj <;> simp [packLevels]

/-- Eight levels shifted in are packed, whatever the accumulator was (R82, R89). -/
theorem shiftInAll_eq_packLevels (d1 d2 d3 d4 d5 d6 d7 d8 : Level) (a : Byte) :
    shiftInAll [d1, d2, d3, d4, d5, d6, d7, d8] a = packLevels d1 d2 d3 d4 d5 d6 d7 d8 := by
  apply BitVec.eq_of_getLsbD_eq
  intro j hj
  have hget := List.getElem?_eq_getElem (l := [d1, d2, d3, d4, d5, d6, d7, d8]) hj
  rw [getLsbD_shiftInAll a rfl hget, getLsbD_packLevels d1 d2 d3 d4 d5 d6 d7 d8 hget]

/-! The frame -/

/-- The completing edge answers with the accumulator (R85). -/
theorem frameDone_responses (s : State) :
    ∃ ok wk c, (frameDone s).responses = s.responses ++ [(s.issuer, .edge true s.acc ok wk c)] := ⟨_, _, _, rfl⟩

/-- A frame from position 0 answers with its data levels, shifted in, and stores them (R89). -/
theorem execAll_frame_delivers (hwf : (Instr.edge d).wf s.cfg) (hb : s.bitCount = 0) (hw : s.w < s.cfg.n)
    (hlen : ds.length = 8) :
    ∃ t ok wk c, execAll (.edge start :: (ds.map .edge ++ [.edge parity, .edge stop])) s = .next t ∧
      t.responses = s.responses ++ List.replicate 10 (s.issuer, noFrame) ++
        [(s.issuer, .edge true (shiftInAll ds s.acc) ok wk c)] ∧
      t.slots = slotWrite s.slots s.w (shiftInAll ds s.acc) ∧
      t.w = incN s.cfg.n s.w ∧ t.r = s.r ∧ t.bitCount = 0 ∧ t.acc = 0 := by
  have hten : (start :: (ds ++ [parity])).length = 10 := by simp [hlen]
  have hacc := acc_midFrames_frame (start := start) (parity := parity) hb hlen
  obtain ⟨ok, wk, c, hresp⟩ := frameDone_responses (midFrames s (start :: (ds ++ [parity])))
  rw [hacc, midFrames_responses, midFrames_issuer, hten] at hresp
  refine ⟨_, ok, wk, c, execAll_frame hwf hb hw hlen, hresp, ?_, ?_, ?_, rfl, rfl⟩
  · simp [frameDone, hacc]
  · simp [frameDone]
  · simp [frameDone]

/-- Settles O11: the byte delivered is the eight levels shifted in, which packs them. -/
theorem frameDeliversPackedByte : Obligations.FrameDeliversPackedByte := by
  intro d0 d1 d2 d3 d4 d5 d6 d7 d8 d9 d10 s hwf hb hw
  rw [← shiftInAll_eq_packLevels d1 d2 d3 d4 d5 d6 d7 d8 s.acc]
  exact execAll_frame_delivers (ds := [d1, d2, d3, d4, d5, d6, d7, d8]) hwf hb hw rfl

/-! What edges enqueue -/

theorem enqueuedIn_append {is js : List Instr} (h : execAll is s = .next t) :
    enqueuedIn (is ++ js) s = enqueuedIn is s ++ enqueuedIn js t := by
  induction is generalizing s with
  | nil => cases h; rfl
  | cons i is ih =>
    obtain ⟨u, hu, ht⟩ := execAll_cons h
    rw [List.cons_append, enqueuedIn_cons hu, enqueuedIn_cons hu, ih ht, List.append_assoc]

/-- Before the last position of a frame edges enqueue nothing (R92 (f)). -/
theorem enqueuedIn_midFrames (hwf : (Instr.edge d).wf s.cfg) (h : s.bitCount.toNat + ds.length ≤ 10) :
    enqueuedIn (ds.map .edge) s = [] := by
  induction ds generalizing s with
  | nil => rfl
  | cons d' ds ih =>
    rw [List.length_cons] at h
    have hbit := toNat_bitCount_midFrame d' (s := s) (by omega)
    have hnone : enqueuedBy (.edge d') s = none := if_neg (by omega)
    rw [List.map_cons, enqueuedIn_cons (exec_edge_midFrame (d := d') hwf (by omega)), hnone,
      ih (s := midFrame s d') hwf (by omega)]
    rfl

theorem enqueuedIn_singleton (i : Instr) (s : State) : enqueuedIn [i] s = (enqueuedBy i s).toList := by
  rw [enqueuedIn]
  cases exec i s <;> exact List.append_nil _

/-- A frame enqueues its data levels, shifted in (R89). -/
theorem enqueuedIn_frame (hwf : (Instr.edge d).wf s.cfg) (hb : s.bitCount = 0) (hlen : ds.length = 8) :
    enqueuedIn (.edge start :: (ds.map .edge ++ [.edge parity, .edge stop])) s = [shiftInAll ds s.acc] := by
  have hten : s.bitCount.toNat + (start :: (ds ++ [parity])).length = 10 := by simp [hb, hlen]
  have hsplit : Instr.edge start :: (ds.map .edge ++ [.edge parity, .edge stop]) =
      (start :: (ds ++ [parity])).map .edge ++ [.edge stop] := by simp
  have hlast : enqueuedBy (.edge stop) (midFrames s (start :: (ds ++ [parity]))) = some (shiftInAll ds s.acc) := by
    rw [← acc_midFrames_frame hb hlen]
    exact if_pos ((toNat_bitCount_midFrames hten.le).trans hten)
  rw [hsplit, enqueuedIn_append (execAll_midFrames hwf hten.le), enqueuedIn_midFrames hwf hten.le,
    enqueuedIn_singleton, hlast]
  rfl

/-! Frames one after the other -/

/-- The first `m` edges of a clock line with these levels. -/
def edgesUpTo (level : Nat → Level) (m : Nat) : List Instr := (List.range m).map fun e => .edge (level e)

/-- The levels of the DATA edges of frame `k`, counting frames and edges from 0 (R90). -/
def frameData (level : Nat → Level) (k : Nat) : List Level :=
  [level (11 * k + 1), level (11 * k + 2), level (11 * k + 3), level (11 * k + 4), level (11 * k + 5),
    level (11 * k + 6), level (11 * k + 7), level (11 * k + 8)]

/-- The byte of frame `k` (R90). -/
def frameByte (level : Nat → Level) (k : Nat) : Byte :=
  packLevels (level (11 * k + 1)) (level (11 * k + 2)) (level (11 * k + 3)) (level (11 * k + 4)) (level (11 * k + 5))
    (level (11 * k + 6)) (level (11 * k + 7)) (level (11 * k + 8))

theorem shiftInAll_frameData (level : Nat → Level) (k : Nat) (a : Byte) :
    shiftInAll (frameData level k) a = frameByte level k := shiftInAll_eq_packLevels ..

theorem edgesUpTo_eq_map (level : Nat → Level) (m : Nat) :
    edgesUpTo level m = ((List.range m).map level).map .edge := List.map_map.symm

theorem edgesUpTo_frame (level : Nat → Level) (k : Nat) :
    edgesUpTo level (11 * (k + 1)) = edgesUpTo level (11 * k) ++ .edge (level (11 * k)) ::
      ((frameData level k).map .edge ++ [.edge (level (11 * k + 9)), .edge (level (11 * k + 10))]) := by
  rw [edgesUpTo, Nat.mul_succ, List.range_add, List.map_append]
  rfl

/-- Whole frames complete and leave the block between frames. -/
theorem execAll_frames (level : Nat → Level) (k : Nat) (hs : s.Inv) (hwf : (Instr.edge d).wf s.cfg)
    (hb : s.bitCount = 0) :
    ∃ t, execAll (edgesUpTo level (11 * k)) s = .next t ∧ t.cfg = s.cfg ∧ t.bitCount = 0 := by
  have hedges : ∀ i ∈ edgesUpTo level (11 * k), i.wf s.cfg := List.forall_mem_map.mpr fun _ _ => hwf
  obtain ⟨t, ht, -, hcfg, -⟩ := execAll_refines hs hedges
  have hreset : Instr.reset ∉ edgesUpTo level (11 * k) := by
    rw [edgesUpTo_eq_map]
    exact reset_notMem_map_edge _
  have hcount : (edgesUpTo level (11 * k)).countP isEdge = 11 * k := by
    rw [edgesUpTo_eq_map, countP_isEdge_map_edge, List.length_map, List.length_range]
  exact ⟨t, ht, hcfg, (samplerNeverResynchronizes _ s t k hs.position hreset hcount ht).trans hb⟩

/-- Frame by frame, the bytes of the frames are enqueued (R90). -/
theorem enqueuedIn_frames (level : Nat → Level) (k : Nat) (hs : s.Inv) (hwf : (Instr.edge d).wf s.cfg)
    (hb : s.bitCount = 0) : enqueuedIn (edgesUpTo level (11 * k)) s = (List.range k).map (frameByte level) := by
  induction k with
  | zero => rfl
  | succ k ih =>
    obtain ⟨t, ht, hcfg, hzero⟩ := execAll_frames level k hs hwf hb
    rw [← hcfg] at hwf
    rw [edgesUpTo_frame, enqueuedIn_append ht, ih, enqueuedIn_frame hwf hzero rfl, shiftInAll_frameData,
      List.range_succ, List.map_append, List.map_singleton]

/-- Settles O12: the edges complete (`execAll_frames`) and enqueue each frame's byte (`enqueuedIn_frames`). -/
theorem framesDeliverBytesInOrder : Obligations.FramesDeliverBytesInOrder := by
  intro level k s hs hport hb
  have hwf : (Instr.edge 0).wf s.cfg := (wf_iff _ _).mpr ⟨hs.capacity, by simp [Instr.admittedBy, hport]⟩
  obtain ⟨t, ht, -, hzero⟩ := execAll_frames level k hs hwf hb
  exact ⟨t, ht, hzero, enqueuedIn_frames level k hs hwf hb⟩

end Sys2Proof.Machine
end

section
/-! Single queue events (spec/41_queue.md R100 to R108): what one event answers, what an overrun leaves, and which
events move an index. -/

namespace Sys2Proof.Machine

variable {s t : State} {i : Instr} {x : Byte}

/-- Settles O27: each event has its own commuting lemma, assembled in `refines_of_wf`. -/
theorem blockRefinesAbstractQueue : Obligations.BlockRefinesAbstractQueue :=
  fun _ _ hs hwf => refines_of_wf hs hwf

/-- Settles O14: the state is `enqDone`, with its flags written out. -/
theorem enqueueStoresAndAdvances : Obligations.EnqueueStoresAndAdvances :=
  ⟨fun _ x => (decode_eq_ok_iff _ _ (.enq x)).mpr ⟨rfl, rfl⟩,
    fun _ _ hwf hw => ⟨execEnq_eq hwf hw, slotRead_slotWrite_self ..⟩⟩

/-- A `DEQ` of a read slot that holds nothing, while the queue does not read as empty, faults (R101). -/
theorem execDeq_missing (hwf : Instr.deq.wf s.cfg) (hne : s.r ≠ s.w) (hr : s.r < s.cfg.n)
    (hv : slotRead s.slots s.r = none) : execDeq s = .fault .invariantQ1 := by
  rw [execDeq, whenAdmitted_of_wf hwf]
  simp [emptyFlag, hne, takeHead, inSpace, hr, hv]

/-- Settles O18: the three outcomes are `execDeq_empty`, `execDeq_item` and `execDeq_missing`. -/
theorem dequeueTakesOldest : Obligations.DequeueTakesOldest :=
  ⟨fun _ => (decode_eq_ok_iff _ _ .deq).mpr ⟨rfl, rfl⟩, fun _ => execDeq_empty,
    fun _ _ hwf hne hr hv => ⟨execDeq_item hwf hne hr hv, slotRead_slotClear_self ..⟩, fun _ => execDeq_missing⟩

/-- Settles O19: the answer is `emptyFlag`, and nothing but the response is written (`execIsEmpty_eq`). -/
theorem isEmptyComparesIndices : Obligations.IsEmptyComparesIndices :=
  ⟨fun _ => (decode_eq_ok_iff _ _ .isEmpty).mpr ⟨rfl, rfl⟩, fun _ => execIsEmpty_eq⟩

/-! Full and accepted -/

/-- A byte is not accepted exactly when the advanced `w` is `r`. -/
theorem acceptedFlag_eq_false_iff (w1 r : Nat) : acceptedFlag w1 r = false ↔ w1 = r := bne_eq_false_iff_eq

/-- Settles O20: `fullFlag` is the comparison, `count_eq_last` makes it the occupancy, and the same comparison decides
`accepted`. -/
theorem isFullPredictsOverrun : Obligations.IsFullPredictsOverrun := by
  refine ⟨fun _ => (decode_eq_ok_iff _ _ .isFull).mpr ⟨rfl, rfl⟩, fun _ => execIsFull_eq, fun s hs => ?_⟩
  have hlast := count_eq_last hs.readIndex hs.writeIndex hs.capacity
  refine ⟨hlast.symm, fun htwo => ?_, fun x hwf => ?_⟩
  · rw [← hlast, length_visible hs, htwo]
  · exact ⟨_, _, _, _, execEnq_eq hwf hs.writeIndex, rfl, acceptedFlag_eq_false_iff _ _⟩

/-- `wake` is raised exactly when an enqueue makes the first item visible (R104). -/
theorem wakeFlag_eq_true_iff (hs : s.Inv) (x : Byte) :
    wakeFlag (emptyFlag s) (acceptedFlag (incN s.cfg.n s.w) s.r) = true ↔
      visible s = [] ∧ visible (setTail (slotWrite s.slots s.w x) (incN s.cfg.n s.w) s) ≠ [] := by
  have hempty : emptyFlag s = true ↔ visible s = [] := by
    rw [visible_eq_nil_iff hs, emptyFlag, beq_iff_eq]
  rw [wakeFlag, Bool.and_eq_true, hempty, acceptedFlag_eq hs, visible_enqueued hs.readIndex hs.writeIndex]
  by_cases hfull : count s = s.cfg.n - 1 <;> simp [hfull]

/-- An overrun raises no `wake` (R104). -/
theorem wakeFlag_of_overrun {empty ok : Bool} (h : condOf ok = .overrun) : wakeFlag empty ok = false := by
  cases ok with
  | false => exact Bool.and_false empty
  | true => cases h

/-- Settles O24: both producers answer the `wake` of the shared enqueue (`wakeFlag_eq_true_iff`). -/
theorem wakeMarksEmptyToNonEmpty : Obligations.WakeMarksEmptyToNonEmpty := by
  refine fun s hs => ⟨fun x hwf => ?_, fun d hwf hb => ?_⟩
  · exact ⟨_, _, _, _, execEnq_eq hwf hs.writeIndex, rfl, wakeFlag_eq_true_iff hs x, wakeFlag_of_overrun⟩
  · exact ⟨_, _, _, _, exec_edge_frameDone hwf hb hs.writeIndex, rfl, wakeFlag_eq_true_iff hs s.acc,
      wakeFlag_of_overrun⟩

/-! The overrun -/

/-- With `N - 1` items visible every slot but the write slot is a visible one. -/
theorem exists_visible_slot {a : Nat} (hs : s.Inv) (hfull : count s = s.cfg.n - 1) (ha : a < s.cfg.n)
    (hne : a ≠ s.w) : ∃ k < count s, (s.r + k) % s.cfg.n = a := by
  have hdist : (s.r + count (setTail s.slots a s)) % s.cfg.n = a :=
    head_add_count (s := setTail s.slots a s) hs.readIndex ha
  have hlt : count (setTail s.slots a s) < s.cfg.n := count_lt (s := setTail s.slots a s) hs.readIndex
  refine ⟨_, Nat.lt_of_le_of_ne (by omega) fun hlast => hne ?_, hdist⟩
  rw [← hdist, hlast, head_add_count hs.readIndex hs.writeIndex]

/-- After an enqueue on a full queue every slot holds a byte: the visible ones and the one written (R105). -/
theorem slotRead_slotWrite_of_full {a : Nat} (hs : s.Inv) (hfull : count s = s.cfg.n - 1) (ha : a < s.cfg.n) :
    slotRead (slotWrite s.slots s.w x) a ≠ none := by
  by_cases hne : a = s.w
  · simp [hne]
  · obtain ⟨k, hk, hslot⟩ := exists_visible_slot hs hfull ha hne
    rw [slotRead_slotWrite_ne _ _ hne, ← hslot]
    exact hs.q1 k hk

/-- `ENQ` on a full queue stores its byte and answers OVERRUN, and a `DEQ` then returns `None` (R105). -/
theorem exec_enq_of_full (hs : s.Inv) (hwf : (Instr.enq x).wf s.cfg) (hfull : fullFlag s = true) :
    exec (.enq x) s = .next (enqDone s x) ∧
      (enqDone s x).responses = s.responses ++ [(s.issuer, .enq false false .overrun)] ∧ (enqDone s x).w = s.r ∧
      exec .deq (enqDone s x) = .next (respond (.deq none) (enqDone s x)) := by
  have hw : (enqDone s x).w = s.r := beq_iff_eq.mp hfull
  have hdeq : Instr.deq.wf s.cfg := (wf_iff _ _).mpr ⟨hs.capacity, rfl⟩
  refine ⟨execEnq_eq hwf hs.writeIndex, ?_, hw, execDeq_empty hdeq hw.symm⟩
  simp [enqDone, acceptedFlag_of_full hfull, wakeFlag, condOf]

/-- Settles O15: the enqueue brings `w` to `r` (`exec_enq_of_full`), so no item is visible, while the write fills the
one slot that held none (`slotRead_slotWrite_of_full`). -/
theorem overrunDiscardsVisibleItems : Obligations.OverrunDiscardsVisibleItems := by
  intro x s hs hwf hcount
  have hfull := (fullFlag_eq_true_iff hs).mpr hcount
  obtain ⟨hexec, hresp, hw, hdeq⟩ := exec_enq_of_full hs hwf hfull
  have hinv : (enqDone s x).Inv := hs.exec_next hexec
  have hnone : count (enqDone s x) = 0 := (count_eq_zero hinv.readIndex hinv.writeIndex).mpr hw.symm
  exact ⟨hfull, _, hexec, hresp, slotRead_slotWrite_self .., rfl, hw, hnone, (emptyFlag_eq_true_iff hinv).mpr hnone,
    visible_of_count_eq_zero hnone, hdeq, fun a ha => slotRead_slotWrite_ne _ _ ha,
    fun a ha => slotRead_slotWrite_of_full hs hcount ha⟩

/-! The indices -/

/-- Settles O25: `incN` advances modulo `n`, and each event's law says which index it writes. -/
theorem indicesAdvanceByOne : Obligations.IndicesAdvanceByOne := by
  refine ⟨fun n i hi => ⟨rfl, incN_eq_mod hi⟩, fun i s t h hreset => ?_⟩
  cases i with
  | edge d =>
    obtain ⟨-, ⟨hb, rfl⟩ | ⟨hb, -, rfl⟩⟩ := execEdge_next h
    · have hne : s.bitCount ≠ 10 := fun hten => by simp [hten] at hb
      exact ⟨(if_neg hne).symm, rfl⟩
    · exact ⟨(if_pos (BitVec.eq_of_toNat_eq hb)).symm, rfl⟩
  | enq x => obtain ⟨-, -, rfl⟩ := execEnq_next h; exact ⟨rfl, rfl⟩
  | deq =>
    obtain ⟨-, ⟨hempty, rfl⟩ | ⟨hne, -, v, -, rfl⟩⟩ := execDeq_next h
    · exact ⟨rfl, (if_pos hempty).symm⟩
    · exact ⟨rfl, (if_neg hne).symm⟩
  | isEmpty => obtain ⟨-, rfl⟩ := execIsEmpty_next h; exact ⟨rfl, rfl⟩
  | isFull => obtain ⟨-, rfl⟩ := execIsFull_next h; exact ⟨rfl, rfl⟩
  | reset => exact absurd rfl hreset

/-! The frame -/

/-- Settles O47: no event touches the ports (`ports_of_exec_next`), and both storing events write one slot, the one
at `w`. -/
theorem storingEventsFrame : Obligations.StoringEventsFrame := by
  refine ⟨fun x s t h => ?_, fun d s t h hb => ?_⟩ <;>
    obtain ⟨hcfg, hissuer⟩ := cfg_issuer_of_exec_next h <;>
    obtain ⟨hschedule, hpending⟩ := ports_of_exec_next h
  · obtain ⟨-, -, rfl⟩ := execEnq_next h
    exact ⟨hcfg, rfl, rfl, rfl, hissuer, hschedule, hpending, fun a ha => slotRead_slotWrite_ne _ _ ha⟩
  · obtain ⟨-, ⟨hlt, -⟩ | ⟨-, -, rfl⟩⟩ := execEdge_next h
    · simp [hb] at hlt
    · exact ⟨hcfg, rfl, hissuer, hschedule, hpending, fun a ha => slotRead_slotWrite_ne _ _ ha⟩

end Sys2Proof.Machine
end

section
/-! Invariant Q1 alone (spec/41_queue.md R106): with both indices in range it says that the list of visible items is as
long as the occupancy, and every event keeps that. -/

namespace Sys2Proof.Machine

variable {s t : State} {i : Instr}

theorem length_itemsFrom_le (n : Nat) (m : Memory) (k i : Nat) : (itemsFrom n m k i).length ≤ k := by
  induction k generalizing i with
  | zero => exact Nat.le_refl 0
  | succ k ih =>
    have hhead : (slotRead m i).toList.length ≤ 1 := Option.length_toList_le
    have hrest := ih (incN n i)
    rw [itemsFrom_succ, List.length_append]
    omega

/-- A list of items as long as its range has no empty slot in the range. -/
theorem slotRead_ne_none_of_length_itemsFrom {n i k : Nat} {m : Memory} (hi : i < n)
    (hlen : (itemsFrom n m k i).length = k) : ∀ j < k, slotRead m ((i + j) % n) ≠ none := by
  induction k with
  | zero => exact fun j hj => absurd hj (Nat.not_lt_zero j)
  | succ k ih =>
    rw [itemsFrom_snoc m k hi, List.length_append] at hlen
    have hle := length_itemsFrom_le n m k i
    intro j hj
    cases hlast : slotRead m ((i + k) % n) with
    | none => rw [hlast, Option.toList_none, List.length_nil] at hlen; omega
    | some b =>
      rw [hlast] at hlen
      rcases Nat.lt_succ_iff_lt_or_eq.mp hj with hlt | rfl
      · exact ih (by simpa using hlen) j hlt
      · simp [hlast]

/-- Q1: no visible slot is empty. -/
theorem q1_iff_length_visible (hr : s.r < s.cfg.n) :
    (∀ k < count s, slotRead s.slots ((s.r + k) % s.cfg.n) ≠ none) ↔ (visible s).length = count s :=
  ⟨length_itemsFrom hr, slotRead_ne_none_of_length_itemsFrom hr⟩

theorem length_visible_enqueued (hr : s.r < s.cfg.n) (hw : s.w < s.cfg.n) (hlen : (visible s).length = count s)
    (x : Byte) :
    (visible (setTail (slotWrite s.slots s.w x) (incN s.cfg.n s.w) s)).length =
      count (setTail (slotWrite s.slots s.w x) (incN s.cfg.n s.w) s) := by
  rw [visible_enqueued hr hw, count_setTail_incN hr hw]
  split
  · rfl
  · rw [List.length_append, hlen]; rfl

theorem length_visible_dequeued {v : Byte} (hr : s.r < s.cfg.n) (hw : s.w < s.cfg.n) (hne : s.r ≠ s.w)
    (hv : slotRead s.slots s.r = some v) (hlen : (visible s).length = count s) :
    (visible (setHead (slotClear s.slots s.r) (incN s.cfg.n s.r) s)).length =
      count (setHead (slotClear s.slots s.r) (incN s.cfg.n s.r) s) := by
  rw [visible_eq_cons_dequeued hr hw hne hv,
    count_eq_count_setHead_incN_succ hr hw hne (slotClear s.slots s.r)] at hlen
  exact Nat.succ.inj hlen

/-- Reset, the block has no visible slot, whatever its state before (R120). -/
theorem count_resetBlock (s : State) : count (resetBlock s) = 0 := by simp [count]

/-- Every event keeps the read index in range, and the visible items as many as the occupancy. -/
theorem exec_next_keeps_length_visible (hr : s.r < s.cfg.n) (hw : s.w < s.cfg.n)
    (hlen : (visible s).length = count s) (h : exec i s = .next t) :
    t.r < t.cfg.n ∧ (visible t).length = count t := by
  cases i with
  | edge d =>
    obtain ⟨-, ⟨-, rfl⟩ | ⟨-, -, rfl⟩⟩ := execEdge_next h
    · exact ⟨hr, hlen⟩
    · exact ⟨hr, length_visible_enqueued hr hw hlen s.acc⟩
  | enq x =>
    obtain ⟨-, -, rfl⟩ := execEnq_next h
    exact ⟨hr, length_visible_enqueued hr hw hlen x⟩
  | deq =>
    obtain ⟨-, ⟨-, rfl⟩ | ⟨hne, -, v, hv, rfl⟩⟩ := execDeq_next h
    · exact ⟨hr, hlen⟩
    · exact ⟨incN_lt hr, length_visible_dequeued hr hw hne hv hlen⟩
  | isEmpty => obtain ⟨-, rfl⟩ := execIsEmpty_next h; exact ⟨hr, hlen⟩
  | isFull => obtain ⟨-, rfl⟩ := execIsFull_next h; exact ⟨hr, hlen⟩
  | reset =>
    obtain ⟨-, rfl⟩ := execReset_next h
    refine ⟨Nat.zero_lt_of_lt hr, ?_⟩
    simp [count_resetBlock, visible_of_count_eq_zero]

/-- Settles O26: Q1 is the length of the visible items (`q1_iff_length_visible`), which every event keeps. -/
theorem invariantQ1IsPreserved : Obligations.InvariantQ1IsPreserved := by
  refine ⟨fun i s t hr hw hq1 h => ?_, fun s t h => ?_⟩
  · obtain ⟨hr', hlen⟩ := exec_next_keeps_length_visible hr hw ((q1_iff_length_visible hr).mp hq1) h
    exact (q1_iff_length_visible hr').mpr hlen
  · obtain ⟨-, rfl⟩ := execReset_next h
    exact count_resetBlock s

end Sys2Proof.Machine
end

section
/-! Filling an empty queue (spec/41_queue.md R109, R110): `N - 1` bytes go in and come out in order, and the `N`-th
overruns. -/

namespace Sys2Proof.Machine

variable {s t : State} {x : Byte} {xs : List Byte}

/-! The abstract block -/

theorem absExecAll_append (is js : List Instr) (b : AbsBlock) :
    absExecAll (is ++ js) b =
      ((absExecAll js (absExecAll is b).1).1, (absExecAll is b).2 ++ (absExecAll js (absExecAll is b).1).2) := by
  induction is generalizing b with
  | nil => rfl
  | cons i is ih => rw [List.cons_append, absExecAll, ih]; rfl

/-- What `m` accepted enqueues from an empty queue answer: only the first raises `wake`. -/
def fillResponses (m : Nat) : List Response := (List.range m).map fun k => .enq true (k == 0) .none

theorem fillResponses_succ (m : Nat) : fillResponses (m + 1) = fillResponses m ++ [.enq true (m == 0) .none] := by
  rw [fillResponses, List.range_succ, List.map_append]
  rfl

theorem absExec_enq_room {b : AbsBlock} (h : b.q.length < b.n - 1) :
    absExec (.enq x) b = ({ b with q := b.q ++ [x] }, .enq true (b.q.length == 0) .none) := by
  simp [absExec, absEnqueue, h, condOf]

/-- Enqueues up to the capacity fill an empty queue in order, byte after byte. -/
theorem absExecAll_fill {b : AbsBlock} (hq : b.q = []) (hlen : xs.length ≤ b.n - 1) :
    absExecAll (xs.map .enq) b = ({ b with q := xs }, fillResponses xs.length) := by
  induction xs using List.reverseRecOn with
  | nil => exact congrArg (fun q => ({ b with q := q }, [])) hq
  | append_singleton xs x ih =>
    rw [List.length_append, List.length_singleton] at hlen ⊢
    have hroom : xs.length < b.n - 1 := by omega
    rw [List.map_append, absExecAll_append, ih hroom.le, fillResponses_succ, List.map_singleton]
    simp only [absExecAll, absExec_enq_room (b := { b with q := xs }) hroom]

/-- A `DEQ` more than there are items returns them in order, then `None`. -/
theorem absExecAll_drain_succ (b : AbsBlock) :
    absExecAll (List.replicate (b.q.length + 1) .deq) b =
      ({ b with q := [] }, (b.q.map fun v => .deq (some v)) ++ [.deq none]) := by
  rw [List.replicate_succ', absExecAll_append, absExecAll_drain]
  rfl

/-! The block -/

theorem abstractOf_q_of_empty (hs : s.Inv) (hempty : s.r = s.w) : (abstractOf s).q = [] :=
  (visible_eq_nil_iff hs).mpr hempty

theorem enq_wf_of_external (hs : s.Inv) (hport : s.cfg.producerPort = .external) (x : Byte) :
    (Instr.enq x).wf s.cfg :=
  (wf_iff _ _).mpr ⟨hs.capacity, by simp [Instr.admittedBy, hport]⟩

/-- Settles O28: along the abstract block the enqueues fill the queue (`absExecAll_fill`) and the dequeues drain it
(`absExecAll_drain_succ`). -/
theorem fifoBelowCapacity : Obligations.FifoBelowCapacity := by
  intro xs s hs hport hempty hlen
  have hn : s.cfg.n = xs.length + 1 := by have := hs.capacity; omega
  have hdeq : Instr.deq.wf s.cfg := (wf_iff _ _).mpr ⟨hs.capacity, rfl⟩
  have hwf : ∀ i ∈ xs.map Instr.enq ++ List.replicate s.cfg.n .deq, i.wf s.cfg :=
    List.forall_mem_append.mpr ⟨List.forall_mem_map.mpr fun x _ => enq_wf_of_external hs hport x,
      fun i hi => by rwa [List.eq_of_mem_replicate hi]⟩
  have hfill := absExecAll_fill (abstractOf_q_of_empty hs hempty) hlen.le
  have hdrain := absExecAll_drain_succ { abstractOf s with q := xs }
  rw [show ({ abstractOf s with q := xs } : AbsBlock).q.length + 1 = s.cfg.n from hn.symm] at hdrain
  obtain ⟨t, ht, -, -, -, hresp⟩ := execAll_refines hs hwf
  refine ⟨t, ht, ?_⟩
  rw [newResponses_of_append hresp, List.map_map, absExecAll_append, hfill, hdrain]
  simp [fillResponses]

/-- Enqueues do not move `r`. -/
theorem r_of_execAll_enq (h : execAll (xs.map .enq) s = .next t) : t.r = s.r := by
  induction xs generalizing s with
  | nil => cases h; rfl
  | cons x xs ih =>
    obtain ⟨u, hu, ht⟩ := execAll_cons h
    exact (ih ht).trans (exec_next_producerSide hu nofun nofun).1

/-- Settles O29: after `N - 1` enqueues the queue is full (`absExecAll_fill`) and `w` is `N - 1` slots past `r`, so the
`N`-th overruns there (`exec_enq_of_full`). -/
theorem nthEnqueueLosesAll : Obligations.NthEnqueueLosesAll := by
  intro xs x s hs hport hempty hlen
  have henqs : ∀ i ∈ xs.map Instr.enq, i.wf s.cfg :=
    List.forall_mem_map.mpr fun x _ => enq_wf_of_external hs hport x
  obtain ⟨u, hu, hinv, hcfg, habs, hresp⟩ := execAll_refines hs henqs
  rw [absExecAll_fill (abstractOf_q_of_empty hs hempty) hlen.le] at habs hresp
  have hvis : visible u = xs := congrArg AbsBlock.q habs
  have hcount : count u = u.cfg.n - 1 := by rw [← length_visible hinv, hvis, hcfg, hlen]
  have hw : (s.r + s.cfg.n - 1) % s.cfg.n = u.w := by
    have hpos : 1 ≤ s.cfg.n := Nat.le_of_succ_le hs.capacity
    rw [← head_add_count hinv.readIndex hinv.writeIndex, hcount, r_of_execAll_enq hu, hcfg, Nat.add_sub_assoc hpos]
  obtain ⟨hexec, hlast, -, hdeq⟩ := exec_enq_of_full (x := x) hinv (hcfg ▸ enq_wf_of_external hs hport x)
    ((fullFlag_eq_true_iff hinv).mpr hcount)
  refine ⟨enqDone u x, ?_, ?_, ?_, hdeq⟩
  · rw [List.map_append, execAll_append, hu, List.map_singleton]
    simp only [execAll, hexec]
  · rw [hresp, List.append_assoc] at hlast
    rw [newResponses_of_append hlast]
    simp [fillResponses]
  · rw [hw]
    exact slotRead_slotWrite_self ..

end Sys2Proof.Machine
end

section
/-! `RESET` (spec/42_control.md R120): what it leaves, and that in the reset state it only answers. -/

namespace Sys2Proof.Machine

/-- In the state a `RESET` leaves, response included, there is nothing more to reset. -/
theorem resetBlock_respond_resetBlock (q : Response) (s : State) :
    resetBlock (respond q (resetBlock s)) = respond q (resetBlock s) := rfl

/-- Settles O32: `RESET` leaves the cleared block with the unit response (`execReset_eq`), and clearing that block again
changes nothing (`resetBlock_respond_resetBlock`). -/
theorem resetClearsTheBlock : Obligations.ResetClearsTheBlock := by
  refine ⟨fun _ => (decode_eq_ok_iff _ _ .reset).mpr ⟨rfl, rfl⟩, fun s hwf => ?_⟩
  have hagain := execReset_eq (s := respond .reset (resetBlock s)) hwf
  rw [resetBlock_respond_resetBlock] at hagain
  exact ⟨_, execReset_eq hwf, rfl, fun _ => rfl, hagain⟩

end Sys2Proof.Machine
end

section
/-! Settled obligations of the stops (spec/60_exceptions.md R130, R131, R134): no run faults, and the mark a refused
event sets. -/

namespace Sys2Proof.Machine

variable {ρ : Run} {why : Refusal}

/-! No fault -/

/-- Settles O54: an event that is read completes from a state of the invariant (`step_ne_fault`), and neither passing
over an event nor an offer touches what the invariant speaks of. -/
theorem stepNeverFaults : Obligations.StepNeverFaults :=
  ⟨fun _ f hs => step_ne_fault hs f, fun _ hs => hs.skipEvent, fun o _ hs => hs.offerTo o⟩

/-- A run at its start from power-on is sound, in every admitted configuration. -/
theorem sound_start_poweredOn {c : Config} (bus producer consumer harness : List EventWord) (schedule : List Agent)
    (hc : c.wf) : (Run.start (poweredOn c bus producer consumer harness schedule)).Sound c where
  noFault := rfl
  inv := invariantHoldsAtPowerOn.2 c bus producer consumer harness schedule hc
  cfg := rfl

/-- Settles O55: the run is sound at its start, and every offer and every step keeps it so (`Run.Sound.run`). -/
theorem endlessRunsNeverFault : Obligations.EndlessRunsNeverFault := by
  intro c env k hc
  have hsound := (sound_start_poweredOn [] [] [] [] [] hc).run env k
  exact ⟨hsound.noFault, hsound.inv⟩

theorem Run.Sound.steps {c : Config} (h : ρ.Sound c) (k : Nat) : (Run.steps k ρ).Sound c :=
  run_quiet k ρ ▸ h.run _ k

/-- Settles O52: the run is sound at its start, and every step keeps it so (`Run.Sound.steps`). -/
theorem noRunFaults : Obligations.NoRunFaults :=
  fun _ bus producer consumer harness schedule k hc =>
    ((sound_start_poweredOn bus producer consumer harness schedule hc).steps k).noFault

/-! The refusal mark -/

/-- One step of a run keeps the mark: only a refusal writes it, behind the one that is there. -/
theorem refusalMark_advance (h : ρ.refusalMark = some why) : ρ.advance.refusalMark = some why := by
  cases hf : ρ.fault with
  | some f => simp [Run.advance, hf, h]
  | none =>
    cases hstep : step ρ.state with
    | next t => simp [Run.advance, hf, hstep, h]
    | fault f => simp [Run.advance, hf, hstep, h]
    | refused why' => simp [advance_of_step_refused hf hstep, h]

/-- Settles O36, by induction on the number of steps. -/
theorem refusalMarkIsKept : Obligations.RefusalMarkIsKept := by
  intro ρ k why h
  induction k with
  | zero => exact h
  | succ k ih => rw [steps_succ]; exact refusalMark_advance ih

end Sys2Proof.Machine
end

section
/-! Settled obligations of the ports (spec/60_exceptions.md R137 to R139, R142): the race of the two sides on a full
queue, who may issue what, and turns without an event. -/

namespace Sys2Proof.Machine

variable {s : State} {i j : Instr} {a b : Agent} {e : EventWord} {es fs : List EventWord} {rest : List Agent}

/-! A step as an event of the abstract block (spec/41_queue.md R107) -/

@[simp] theorem abstractOf_takeEvent (a : Agent) (s : State) : abstractOf (takeEvent a s) = abstractOf s := by
  cases a <;> rfl

/-- The admitted word of the agent whose turn it is does to the abstraction what its event does to the abstract block,
answers its agent, and leaves the turns behind it and the other agents' words. -/
theorem step_refines (hs : s.Inv) (hsched : s.schedule = a :: rest) (hpend : pendingAt a s = encode i :: es)
    (hwf : i.wf s.cfg) (hmay : mayIssue s.cfg a i = true) :
    ∃ t, step s = .next t ∧ t.schedule = rest ∧ (∀ b ≠ a, pendingAt b t = pendingAt b s) ∧
      abstractOf t = (absExec i (abstractOf s)).1 ∧
      t.responses = s.responses ++ [(a, (absExec i (abstractOf s)).2)] := by
  obtain ⟨-, hadmitted⟩ := (wf_iff _ _).mp hwf
  have hdec : decode s.cfg (encode i) = .ok i := (decode_eq_ok_iff _ _ _).mpr ⟨rfl, hadmitted⟩
  have hstep := step_event (nextEvent_of hsched hpend) hdec hmay
  obtain ⟨t, ht, habs, hresp⟩ := refines_of_wf (hs.takeEvent a) ((takeEvent_cfg s a).symm ▸ hwf)
  obtain ⟨hturns, hwords⟩ := ports_of_exec_next ht
  rw [abstractOf_takeEvent] at habs hresp
  rw [takeEvent_responses, takeEvent_issuer] at hresp
  refine ⟨t, hstep.trans ht, ?_, fun b hb => ?_, habs, hresp⟩
  · rw [hturns, takeEvent_schedule, hsched, List.tail_cons]
  · rw [hwords, pendingAt_takeEvent_ne s hb]

/-- Two agents' admitted words, in the order of their turns, do what their two events do to the abstract block. -/
theorem stepAll_two_refines (hs : s.Inv) (hab : b ≠ a) (hsched : s.schedule = a :: b :: rest)
    (ha : pendingAt a s = encode i :: es) (hb : pendingAt b s = encode j :: fs)
    (hi : i.wf s.cfg) (hj : j.wf s.cfg) (hmi : mayIssue s.cfg a i = true) (hmj : mayIssue s.cfg b j = true) :
    ∃ t, stepAll 2 s = .next t ∧ abstractOf t = (absExec j (absExec i (abstractOf s)).1).1 ∧
      newResponses s t =
        [(a, (absExec i (abstractOf s)).2), (b, (absExec j (absExec i (abstractOf s)).1).2)] := by
  obtain ⟨u, hu, hsched', hpend, habs, hresp⟩ := step_refines hs hsched ha hi hmi
  obtain ⟨hinv, hcfg⟩ := hs.step_next hu
  obtain ⟨t, ht, -, -, habs', hresp'⟩ := step_refines hinv hsched' ((hpend b hab).trans hb) (hcfg ▸ hj) (hcfg ▸ hmj)
  rw [habs] at habs' hresp'
  refine ⟨t, by simp only [stepAll, hu, ht], habs', newResponses_of_append ?_⟩
  rw [hresp', hresp, List.append_assoc, List.singleton_append]

/-! The race at the capacity boundary (R137) -/

/-- On the abstract block a completing edge with room appends its byte. -/
theorem absExec_edge_room {c : AbsBlock} (d : Level) (hpos : c.position = 10) (hroom : c.q.length < c.n - 1) :
    absExec (.edge d) c =
      ({ c with position := 0, acc := 0, q := c.q ++ [c.acc] }, .edge true c.acc true (c.q.length == 0) .none) := by
  simp [absExec, absEnqueue, hpos, hroom, condOf]

/-- On the abstract block a completing edge without room leaves no item. -/
theorem absExec_edge_full {c : AbsBlock} (d : Level) (hpos : c.position = 10) (hfull : c.q.length = c.n - 1) :
    absExec (.edge d) c = ({ c with position := 0, acc := 0, q := [] }, .edge true c.acc false false .overrun) := by
  simp [absExec, absEnqueue, hpos, hfull, condOf]

theorem absExec_deq_cons {c : AbsBlock} {v : Byte} {q : List Byte} (hq : c.q = v :: q) :
    absExec .deq c = ({ c with q := q }, .deq (some v)) := by
  simp [absExec, absDequeue, hq]

/-- Settles O43: the two steps are the two events on the abstract block (`stepAll_two_refines`), where the `DEQ` makes
room for the edge and the edge without room leaves nothing to the `DEQ`. -/
theorem raceAtCapacityBoundary : Obligations.RaceAtCapacityBoundary := by
  intro s d rest bus consumer hs hport hb hfull hbus hconsumer
  have hlen : (visible s).length = s.cfg.n - 1 := (length_visible hs).trans ((fullFlag_eq_true_iff hs).mp hfull)
  have hpos : (abstractOf s).position = 10 := congrArg BitVec.toNat hb
  have hedge : (Instr.edge d).wf s.cfg := (wf_iff _ _).mpr ⟨hs.capacity, by simp [Instr.admittedBy, hport]⟩
  have hdeq : Instr.deq.wf s.cfg := (wf_iff _ _).mpr ⟨hs.capacity, rfl⟩
  refine ⟨fun hsched => ?_, fun hsched => ?_⟩
  · have hne : visible s ≠ [] := List.ne_nil_of_length_pos (by have := hs.capacity; omega)
    obtain ⟨v, q, hq⟩ := List.exists_cons_of_ne_nil hne
    obtain ⟨t, ht, habs, hresp⟩ :=
      stepAll_two_refines (a := .consumer) (b := .bus) hs nofun hsched hconsumer hbus hdeq hedge rfl rfl
    have hroom : q.length < s.cfg.n - 1 := by rw [← hlen, hq, List.length_cons]; exact Nat.lt_succ_self _
    rw [absExec_deq_cons (c := abstractOf s) hq, absExec_edge_room (c := { abstractOf s with q := q }) d hpos hroom]
      at habs hresp
    exact ⟨t, v, _, ht, by rw [hq, List.head?_cons], by rw [hq]; exact congrArg AbsBlock.q habs, hresp⟩
  · obtain ⟨t, ht, habs, hresp⟩ :=
      stepAll_two_refines (a := .bus) (b := .consumer) hs nofun hsched hbus hconsumer hedge hdeq rfl rfl
    rw [absExec_edge_full (c := abstractOf s) d hpos hlen] at habs hresp
    exact ⟨t, ht, congrArg AbsBlock.q habs, hresp⟩

/-! Who may issue what (R138, R139) -/

theorem step_of_not_mayIssue (hn : nextEvent s = some (a, e)) (hd : decode s.cfg e = .ok i)
    (hm : mayIssue s.cfg a i = false) : step s = .refused (.wrongPort a i) := by
  simp [step, hn, readEvent, hd, hm]

/-- The status reads come from the CONSUMER or from the producer side. -/
theorem mayReadStatus_iff (c : Config) (a : Agent) :
    mayReadStatus c a = true ↔ a = .consumer ∨ a = .bus ∨ (a = .producer ∧ c.producerPort = .external) := by
  simp only [mayReadStatus, onProducerSide, Bool.or_eq_true, Bool.and_eq_true, beq_iff_eq]

/-- Settles O37: the step asks `mayIssue` after decoding (`step_of_not_mayIssue`), and `mayIssue` compares the agent
with the one or the ones the event comes from. -/
theorem wrongAgentIsRefused : Obligations.WrongAgentIsRefused := by
  refine ⟨fun s a rest e es i hsched hpend => step_of_not_mayIssue (nextEvent_of hsched hpend), fun c => ?_⟩
  exact ⟨fun _ _ => beq_iff_eq, fun _ _ => beq_iff_eq, fun _ => beq_iff_eq, fun _ => beq_iff_eq, mayReadStatus_iff c,
    mayReadStatus_iff c⟩

/-! Turns without an event (R142) -/

theorem step_of_nextEvent_none (hn : nextEvent s = none) : step s = .next (passTurn s) := by
  simp only [step, hn]

theorem passTurn_of_schedule_nil (h : s.schedule = []) : passTurn s = s := by
  rw [passTurn, h, List.tail_nil, ← h]

/-- Settles O40: with no next event the step only passes the turn (`step_of_nextEvent_none`). -/
theorem blockHoldsStateWithoutEvents : Obligations.BlockHoldsStateWithoutEvents := by
  refine ⟨fun s hsched => ?_, fun s a rest hsched hpend => ?_⟩
  · rw [step_of_nextEvent_none (by simp [nextEvent, hsched]), passTurn_of_schedule_nil hsched]
  · rw [step_of_nextEvent_none (by simp [nextEvent, hsched, hpend]), passTurn, hsched, List.tail_cons]

end Sys2Proof.Machine
end

section
/-! Settled obligations of reset and hazards (spec/70_reset_and_hazards.md R151, R154): the configuration of a run, and
enqueues with room to spare. -/

namespace Sys2Proof.Machine

variable {s t : State}

/-! The configuration (R151) -/

/-- A step passes a turn or runs an event, and neither changes the configuration. -/
theorem cfg_of_step_next (h : step s = .next t) : t.cfg = s.cfg := by
  rcases step_next h with ⟨-, rfl⟩ | ⟨a, e, i, -, -, -, ht⟩
  · exact passTurn_cfg s
  · exact (cfg_issuer_of_exec_next ht).1.trans (takeEvent_cfg s a)

/-- Settles O49, by induction on the number of steps (`cfg_of_step_next`). -/
theorem configurationIsFixed : Obligations.ConfigurationIsFixed := by
  intro k
  induction k with
  | zero => intro s t h; cases h; rfl
  | succ k ih =>
    intro s t h
    obtain ⟨u, hu, ht⟩ := stepAll_succ h
    exact (ih u t ht).trans (cfg_of_step_next hu)

/-! Room for one more (R154) -/

/-- At most `N - 2` visible items leave room for one more on the abstract block. -/
theorem abstractOf_room (hs : s.Inv) (hcount : count s ≤ s.cfg.n - 2) :
    (abstractOf s).q.length < (abstractOf s).n - 1 := by
  have hlen : (abstractOf s).q.length = count s := length_visible hs
  have hcap : 2 ≤ (abstractOf s).n := hs.capacity
  have hle : count s ≤ (abstractOf s).n - 2 := hcount
  omega

/-- Settles O17: both producers do what the abstract event does (`refines_of_wf`), and with room (`abstractOf_room`)
that event appends its byte. -/
theorem enqueueBelowCapacityIsLossless : Obligations.EnqueueBelowCapacityIsLossless := by
  refine fun s hs hcount => ⟨fun x hwf => ?_, fun d hwf hb => ?_⟩ <;>
    obtain ⟨t, ht, habs, hresp⟩ := refines_of_wf hs hwf
  · rw [absExec_enq_room (abstractOf_room hs hcount)] at habs hresp
    exact ⟨t, _, ht, hresp, congrArg AbsBlock.q habs⟩
  · have hpos : (abstractOf s).position = 10 := congrArg BitVec.toNat hb
    rw [absExec_edge_room d hpos (abstractOf_room hs hcount)] at habs hresp
    exact ⟨t, _, ht, hresp, congrArg AbsBlock.q habs⟩

end Sys2Proof.Machine
end
